-- ==== Sys2Proof/Word.lean ====
section
/-! DEFINITION. The two word types of the block (00_scope.md R6): unsigned bytes and 16-bit words. No value of the block
is signed (R6), so there is no sign extension anywhere. -/

namespace Sys2Proof

/-- A byte, 0..255 (00_scope.md R6). -/
abbrev Byte := BitVec 8

/-- A word, 0..65535: the width of addresses, SP and PC (00_scope.md R5, R6). -/
abbrev Word := BitVec 16

end Sys2Proof
end

