-- ==== Sys2Proof/Syntax.lean ====
section
/-! DEFINITION. The instructions. `Instr` has one constructor per row of opcode_table.json (the 76 opcodes of
30_encoding.md R78). `Instruction` is the whole vocabulary of 30_encoding.md R84, which the `execute` interface takes
(40_step.md R102): it also holds values that no opcode decodes to. Immediate values are not part of an instruction
value: the engine reads them from memory (R77, R84; log 4). -/

namespace Sys2Proof

/-- The seven 8-bit general registers (10_state.md R20, R21). -/
inductive Reg8 where
  | a | b | c | d | e | h | l
  deriving DecidableEq, Repr

/-- The four register pairs (10_state.md R23, R24). -/
inductive Pair where
  | af | bc | de | hl
  deriving DecidableEq, Repr

/-- The 16-bit registers of the vocabulary's `Wide(w)` (30_encoding.md R84): the pairs and SP. -/
inductive WideReg where
  | af | bc | de | hl | sp
  deriving DecidableEq, Repr

/-- The four flags of F (10_state.md R25): zero, subtract, half-carry, carry. -/
inductive Flag where
  | z | n | h | c
  deriving DecidableEq, Repr

/-- The eight operations of the arithmetic family (30_encoding.md R72, R84), in the order of field o. -/
inductive AluOp where
  | add | addCarry | sub | subCarry | and | xor | or | compare
  deriving DecidableEq, Repr

/-- The eight operands of the arithmetic family (30_encoding.md R73, R84), in the order of field r. -/
inductive ArithmeticTarget where
  | b | c | d | e | h | l | indirectHL | a
  deriving DecidableEq, Repr

/-- A load operand (30_encoding.md R84). -/
inductive LoadTarget where
  /-- A register. -/
  | reg (r : Reg8)
  /-- A register pair, or SP. -/
  | wide (w : WideReg)
  /-- An 8-bit immediate: the byte following the opcode. -/
  | imm8
  /-- A 16-bit immediate: the two bytes following the opcode, low byte first. -/
  | imm16
  /-- A memory byte addressed by a register pair. -/
  | memAt (p : Pair)
  /-- A memory byte addressed by HL, with HL incremented after the access. -/
  | memHLInc
  /-- A memory byte addressed by HL, with HL decremented after the access. -/
  | memHLDec
  deriving DecidableEq, Repr

/-- The instruction vocabulary of 30_encoding.md R84. -/
inductive Instruction where
  | arith (op : AluOp) (target : ArithmeticTarget)
  | load (dst src : LoadTarget)
  deriving DecidableEq, Repr

/-- One constructor per row of opcode_table.json (30_encoding.md R78, R82). `MemHL` stands for the operand (HL). -/
inductive Instr where
  | addAB | addAC | addAD | addAE | addAH | addAL | addAMemHL | addAA
  | adcAB | adcAC | adcAD | adcAE | adcAH | adcAL | adcAMemHL | adcAA
  | subB | subC | subD | subE | subH | subL | subMemHL | subA
  | sbcAB | sbcAC | sbcAD | sbcAE | sbcAH | sbcAL | sbcAMemHL | sbcAA
  | andB | andC | andD | andE | andH | andL | andMemHL | andA
  | xorB | xorC | xorD | xorE | xorH | xorL | xorMemHL | xorA
  | orB | orC | orD | orE | orH | orL | orMemHL | orA
  | cpB | cpC | cpD | cpE | cpH | cpL | cpMemHL | cpA
  | ldBCd16 | ldDEd16 | ldHLd16 | ldSPd16
  | ldMemBCA | ldMemDEA | ldMemHLIncA | ldMemHLDecA
  | ldBd8 | ldDd8 | ldHd8 | ldMemHLd8
  deriving DecidableEq, Repr

/-- The result of decoding one opcode byte (30_encoding.md R78, R87): an instruction, or the decode failure of an opcode
that has none. -/
inductive Decoded where
  | instruction (i : Instr)
  | failure (opcode : Byte)
  deriving DecidableEq, Repr

/-- The vocabulary value an opcode-table row decodes to (30_encoding.md R78, R85; the column "decode" of
opcode_table.json). -/
def Instr.toInstruction : Instr → Instruction
  | .addAB => .arith .add .b
  | .addAC => .arith .add .c
  | .addAD => .arith .add .d
  | .addAE => .arith .add .e
  | .addAH => .arith .add .h
  | .addAL => .arith .add .l
  | .addAMemHL => .arith .add .indirectHL
  | .addAA => .arith .add .a
  | .adcAB => .arith .addCarry .b
  | .adcAC => .arith .addCarry .c
  | .adcAD => .arith .addCarry .d
  | .adcAE => .arith .addCarry .e
  | .adcAH => .arith .addCarry .h
  | .adcAL => .arith .addCarry .l
  | .adcAMemHL => .arith .addCarry .indirectHL
  | .adcAA => .arith .addCarry .a
  | .subB => .arith .sub .b
  | .subC => .arith .sub .c
  | .subD => .arith .sub .d
  | .subE => .arith .sub .e
  | .subH => .arith .sub .h
  | .subL => .arith .sub .l
  | .subMemHL => .arith .sub .indirectHL
  | .subA => .arith .sub .a
  | .sbcAB => .arith .subCarry .b
  | .sbcAC => .arith .subCarry .c
  | .sbcAD => .arith .subCarry .d
  | .sbcAE => .arith .subCarry .e
  | .sbcAH => .arith .subCarry .h
  | .sbcAL => .arith .subCarry .l
  | .sbcAMemHL => .arith .subCarry .indirectHL
  | .sbcAA => .arith .subCarry .a
  | .andB => .arith .and .b
  | .andC => .arith .and .c
  | .andD => .arith .and .d
  | .andE => .arith .and .e
  | .andH => .arith .and .h
  | .andL => .arith .and .l
  | .andMemHL => .arith .and .indirectHL
  | .andA => .arith .and .a
  | .xorB => .arith .xor .b
  | .xorC => .arith .xor .c
  | .xorD => .arith .xor .d
  | .xorE => .arith .xor .e
  | .xorH => .arith .xor .h
  | .xorL => .arith .xor .l
  | .xorMemHL => .arith .xor .indirectHL
  | .xorA => .arith .xor .a
  | .orB => .arith .or .b
  | .orC => .arith .or .c
  | .orD => .arith .or .d
  | .orE => .arith .or .e
  | .orH => .arith .or .h
  | .orL => .arith .or .l
  | .orMemHL => .arith .or .indirectHL
  | .orA => .arith .or .a
  | .cpB => .arith .compare .b
  | .cpC => .arith .compare .c
  | .cpD => .arith .compare .d
  | .cpE => .arith .compare .e
  | .cpH => .arith .compare .h
  | .cpL => .arith .compare .l
  | .cpMemHL => .arith .compare .indirectHL
  | .cpA => .arith .compare .a
  | .ldBCd16 => .load (.wide .bc) .imm16
  | .ldDEd16 => .load (.wide .de) .imm16
  | .ldHLd16 => .load (.wide .hl) .imm16
  | .ldSPd16 => .load (.wide .sp) .imm16
  | .ldMemBCA => .load (.memAt .bc) (.reg .a)
  | .ldMemDEA => .load (.memAt .de) (.reg .a)
  | .ldMemHLIncA => .load .memHLInc (.reg .a)
  | .ldMemHLDecA => .load .memHLDec (.reg .a)
  | .ldBd8 => .load (.reg .b) .imm8
  | .ldDd8 => .load (.reg .d) .imm8
  | .ldHd8 => .load (.reg .h) .imm8
  | .ldMemHLd8 => .load (.memAt .hl) .imm8

end Sys2Proof
end

