-- ==== Sys2Proof/WellFormed.lean ====
section
/-! DEFINITION. Which instruction values the engine gives a meaning to (42_load.md R158). Every `Instr` is one of them. -/

namespace Sys2Proof

/-- The engine-defined `Load(dst, src)` combinations, row by row of 42_load.md R158. -/
def LoadTarget.definedPair : LoadTarget → LoadTarget → Bool
  | .wide .bc, .imm16 => true
  | .wide .de, .imm16 => true
  | .wide .hl, .imm16 => true
  | .wide .sp, .imm16 => true
  | .memAt .bc, .reg .a => true
  | .memAt .de, .reg .a => true
  | .memHLInc, .reg .a => true
  | .memHLDec, .reg .a => true
  | .reg .b, .imm8 => true
  | .reg .d, .imm8 => true
  | .reg .h, .imm8 => true
  | .memAt .hl, .imm8 => true
  | .reg _, .reg _ => true
  | _, _ => false

/-- The engine-defined set (42_load.md R158): every `Arith(op, t)`, and the loads of `definedPair`. -/
def Instruction.wellFormed : Instruction → Bool
  | .arith _ _ => true
  | .load dst src => dst.definedPair src

/-- An opcode-table row is well formed when its vocabulary value is (42_load.md R158: "The set holds every instruction the
decoder produces"). -/
def Instr.wellFormed (i : Instr) : Bool := i.toInstruction.wellFormed

end Sys2Proof
end

