-- ==== Sys2Proof/Decode.lean ====
section
/-! DEFINITION. Decoding one opcode byte by the fields of 30_encoding.md R71 to R76, total over the 256 opcodes and
rejecting the other 180 by name (R78, R79); and, written separately from the opcode map of R82, the encoder. The decoder
reads no immediate (R77): an instruction's immediate bytes follow the opcode in memory. -/

namespace Sys2Proof

/-! ## Fields -/

/-- Bits hi..lo of an opcode as an unsigned number (00_scope.md R6): `lo`, and the field's width. -/
def opcodeField (opcode : Byte) (lo width : Nat) : Nat := opcode.toNat / 2 ^ lo % 2 ^ width

/-- The operation field o (30_encoding.md R72). -/
def AluOp.ofField : Nat → AluOp
  | 0 => .add
  | 1 => .addCarry
  | 2 => .sub
  | 3 => .subCarry
  | 4 => .and
  | 5 => .xor
  | 6 => .or
  | _ => .compare

/-- The target field r (30_encoding.md R73). -/
def ArithmeticTarget.ofField : Nat → ArithmeticTarget
  | 0 => .b
  | 1 => .c
  | 2 => .d
  | 3 => .e
  | 4 => .h
  | 5 => .l
  | 6 => .indirectHL
  | _ => .a

/-- The arithmetic-family row of an operation and a target (30_encoding.md R82, rows 8x to Bx). -/
def Instr.ofArith : AluOp → ArithmeticTarget → Instr
  | .add, .b => .addAB
  | .add, .c => .addAC
  | .add, .d => .addAD
  | .add, .e => .addAE
  | .add, .h => .addAH
  | .add, .l => .addAL
  | .add, .indirectHL => .addAMemHL
  | .add, .a => .addAA
  | .addCarry, .b => .adcAB
  | .addCarry, .c => .adcAC
  | .addCarry, .d => .adcAD
  | .addCarry, .e => .adcAE
  | .addCarry, .h => .adcAH
  | .addCarry, .l => .adcAL
  | .addCarry, .indirectHL => .adcAMemHL
  | .addCarry, .a => .adcAA
  | .sub, .b => .subB
  | .sub, .c => .subC
  | .sub, .d => .subD
  | .sub, .e => .subE
  | .sub, .h => .subH
  | .sub, .l => .subL
  | .sub, .indirectHL => .subMemHL
  | .sub, .a => .subA
  | .subCarry, .b => .sbcAB
  | .subCarry, .c => .sbcAC
  | .subCarry, .d => .sbcAD
  | .subCarry, .e => .sbcAE
  | .subCarry, .h => .sbcAH
  | .subCarry, .l => .sbcAL
  | .subCarry, .indirectHL => .sbcAMemHL
  | .subCarry, .a => .sbcAA
  | .and, .b => .andB
  | .and, .c => .andC
  | .and, .d => .andD
  | .and, .e => .andE
  | .and, .h => .andH
  | .and, .l => .andL
  | .and, .indirectHL => .andMemHL
  | .and, .a => .andA
  | .xor, .b => .xorB
  | .xor, .c => .xorC
  | .xor, .d => .xorD
  | .xor, .e => .xorE
  | .xor, .h => .xorH
  | .xor, .l => .xorL
  | .xor, .indirectHL => .xorMemHL
  | .xor, .a => .xorA
  | .or, .b => .orB
  | .or, .c => .orC
  | .or, .d => .orD
  | .or, .e => .orE
  | .or, .h => .orH
  | .or, .l => .orL
  | .or, .indirectHL => .orMemHL
  | .or, .a => .orA
  | .compare, .b => .cpB
  | .compare, .c => .cpC
  | .compare, .d => .cpD
  | .compare, .e => .cpE
  | .compare, .h => .cpH
  | .compare, .l => .cpL
  | .compare, .indirectHL => .cpMemHL
  | .compare, .a => .cpA

/-! ## The decode function -/

/-- Format LD16 (30_encoding.md R74): the destination field p. -/
def decodeLd16 : Nat → Instr
  | 0 => .ldBCd16
  | 1 => .ldDEd16
  | 2 => .ldHLd16
  | _ => .ldSPd16

/-- Format STA (30_encoding.md R75): the address-form field p. -/
def decodeSta : Nat → Instr
  | 0 => .ldMemBCA
  | 1 => .ldMemDEA
  | 2 => .ldMemHLIncA
  | _ => .ldMemHLDecA

/-- Format LD8 (30_encoding.md R76): the destination field d; its odd values are not in the table. -/
def decodeLd8 (opcode : Byte) : Nat → Decoded
  | 0 => .instruction .ldBd8
  | 2 => .instruction .ldDd8
  | 4 => .instruction .ldHd8
  | 6 => .instruction .ldMemHLd8
  | _ => .failure opcode

/-- The opcodes with bits 7..6 = 0b00: formats LD16 and STA by bits 3..0, format LD8 by bits 2..0 (30_encoding.md R71). -/
def decodeLoad (opcode : Byte) : Decoded :=
  if opcodeField opcode 0 4 = 0b0001 then .instruction (decodeLd16 (opcodeField opcode 4 2))
  else if opcodeField opcode 0 4 = 0b0010 then .instruction (decodeSta (opcodeField opcode 4 2))
  else if opcodeField opcode 0 3 = 0b110 then decodeLd8 opcode (opcodeField opcode 3 3)
  else .failure opcode

/-- `decode(opcodeByte)` of 30_encoding.md R78: a function of the opcode byte alone (R80). -/
def decode (opcode : Byte) : Decoded :=
  if opcodeField opcode 6 2 = 0b10 then
    .instruction (.ofArith (.ofField (opcodeField opcode 3 3)) (.ofField (opcodeField opcode 0 3)))
  else if opcodeField opcode 6 2 = 0b00 then decodeLoad opcode
  else .failure opcode

/-! ## The encoder -/

/-- The opcode of each instruction, from the opcode map of 30_encoding.md R82. -/
def encodeOpcode : Instr → Byte
  | .addAB => 0x80#8
  | .addAC => 0x81#8
  | .addAD => 0x82#8
  | .addAE => 0x83#8
  | .addAH => 0x84#8
  | .addAL => 0x85#8
  | .addAMemHL => 0x86#8
  | .addAA => 0x87#8
  | .adcAB => 0x88#8
  | .adcAC => 0x89#8
  | .adcAD => 0x8A#8
  | .adcAE => 0x8B#8
  | .adcAH => 0x8C#8
  | .adcAL => 0x8D#8
  | .adcAMemHL => 0x8E#8
  | .adcAA => 0x8F#8
  | .subB => 0x90#8
  | .subC => 0x91#8
  | .subD => 0x92#8
  | .subE => 0x93#8
  | .subH => 0x94#8
  | .subL => 0x95#8
  | .subMemHL => 0x96#8
  | .subA => 0x97#8
  | .sbcAB => 0x98#8
  | .sbcAC => 0x99#8
  | .sbcAD => 0x9A#8
  | .sbcAE => 0x9B#8
  | .sbcAH => 0x9C#8
  | .sbcAL => 0x9D#8
  | .sbcAMemHL => 0x9E#8
  | .sbcAA => 0x9F#8
  | .andB => 0xA0#8
  | .andC => 0xA1#8
  | .andD => 0xA2#8
  | .andE => 0xA3#8
  | .andH => 0xA4#8
  | .andL => 0xA5#8
  | .andMemHL => 0xA6#8
  | .andA => 0xA7#8
  | .xorB => 0xA8#8
  | .xorC => 0xA9#8
  | .xorD => 0xAA#8
  | .xorE => 0xAB#8
  | .xorH => 0xAC#8
  | .xorL => 0xAD#8
  | .xorMemHL => 0xAE#8
  | .xorA => 0xAF#8
  | .orB => 0xB0#8
  | .orC => 0xB1#8
  | .orD => 0xB2#8
  | .orE => 0xB3#8
  | .orH => 0xB4#8
  | .orL => 0xB5#8
  | .orMemHL => 0xB6#8
  | .orA => 0xB7#8
  | .cpB => 0xB8#8
  | .cpC => 0xB9#8
  | .cpD => 0xBA#8
  | .cpE => 0xBB#8
  | .cpH => 0xBC#8
  | .cpL => 0xBD#8
  | .cpMemHL => 0xBE#8
  | .cpA => 0xBF#8
  | .ldBCd16 => 0x01#8
  | .ldDEd16 => 0x11#8
  | .ldHLd16 => 0x21#8
  | .ldSPd16 => 0x31#8
  | .ldMemBCA => 0x02#8
  | .ldMemDEA => 0x12#8
  | .ldMemHLIncA => 0x22#8
  | .ldMemHLDecA => 0x32#8
  | .ldBd8 => 0x06#8
  | .ldDd8 => 0x16#8
  | .ldHd8 => 0x26#8
  | .ldMemHLd8 => 0x36#8

/-- The immediate bytes after the opcode, low byte first (30_encoding.md R71, R77; 20_memory.md R54): none, imm8 (the low byte
of `imm`), or imm16. -/
def immediateBytes (imm : Word) : Instr → List Byte
  | .ldBCd16 | .ldDEd16 | .ldHLd16 | .ldSPd16 => [imm.extractLsb' 0 8, imm.extractLsb' 8 8]
  | .ldBd8 | .ldDd8 | .ldHd8 | .ldMemHLd8 => [imm.extractLsb' 0 8]
  | .addAB | .addAC | .addAD | .addAE | .addAH | .addAL | .addAMemHL | .addAA | .adcAB | .adcAC | .adcAD | .adcAE | .adcAH | .adcAL | .adcAMemHL | .adcAA | .subB | .subC | .subD | .subE | .subH | .subL | .subMemHL | .subA
  | .sbcAB | .sbcAC | .sbcAD | .sbcAE | .sbcAH | .sbcAL | .sbcAMemHL | .sbcAA | .andB | .andC | .andD | .andE | .andH | .andL | .andMemHL | .andA | .xorB | .xorC | .xorD | .xorE | .xorH | .xorL | .xorMemHL | .xorA
  | .orB | .orC | .orD | .orE | .orH | .orL | .orMemHL | .orA | .cpB | .cpC | .cpD | .cpE | .cpH | .cpL | .cpMemHL | .cpA
  | .ldMemBCA | .ldMemDEA | .ldMemHLIncA | .ldMemHLDecA => []

/-- The bytes of an instruction with the immediate `imm`, in address order (30_encoding.md R70, R71). -/
def encode (i : Instr) (imm : Word) : List Byte := encodeOpcode i :: immediateBytes imm i

/-! ## The opcode table's words -/

/-- Byte `k` of a word numbered as opcode_table.json numbers it (bit 0 the least significant bit of the first byte), every
bit from `nbits` up being 0 (log 3). -/
def tableByte (nbits w k : Nat) : Byte := BitVec.ofNat 8 (w % 2 ^ nbits / 256 ^ k)

/-- What the decoder reads from an opcode-table word: the instruction its first byte decodes to. -/
def decodeTableWord (nbits w : Nat) : Option Instr :=
  match decode (tableByte nbits w 0) with
  | .instruction i => some i
  | .failure _ => none

end Sys2Proof
end

