-- ==== Sys2Proof/Config.lean ====
section
/-! DEFINITION. The parameters of 00_scope.md R5 that the machine reads. The spec leaves no value of a running instruction
open, so there is no free value here. The open parameter `mem0` (92_eei_decisions.md D6) is plain data in State:
`State.resetWith` takes it as an argument. -/

namespace Sys2Proof

/-- The number of byte addresses (00_scope.md R5, 20_memory.md R50). -/
def Config.addressSpace : Nat := 65536

/-- The address of the first fetch after reset (10_state.md R34, 70_reset_and_hazards.md R201). -/
def Config.resetEntry : Word := 0x0000#16

end Sys2Proof
end

