-- ==== Sys2Proof/Machine/State.lean ====
section
/-! DEFINITION. The state of the block (10_state.md R20, R37), its two fault kinds (60_exceptions.md R180), and reset
(70_reset_and_hazards.md R200). -/

namespace Sys2Proof.Machine

/-- Memory as (address, byte) pairs in one canonical form (`Memory.wf`, Machine/Ops.lean); an address that is not listed reads
as `Memory.unlistedByte` (log 1). -/
abbrev Memory := List Host.Cell

/-- The two synchronous fault kinds of 60_exceptions.md R180, each with what the spec records of it. A fault is first stored in the
fault latch by `takeFault`; it is the outcome of every step asked for while the latch holds it (R183, log 2). -/
inductive Fault where
  /-- Code 1 (R180, R181): a step fetched an opcode that has no defined instruction, at `address`. Raised by `step`. SAFE: the
  spec itself halts the block there. -/
  | decodeFailure (opcode : Byte) (address : Word)
  /-- Code 2 (R180, R182): `execute` was given an operand combination the engine does not handle. Raised by
  `applyInstruction` on a constructed instruction value, never by a step of the block. SAFE: the spec itself halts the block
  there. -/
  | engineContractViolation (instruction : Instruction)
  deriving DecidableEq, Repr

/-- Why the model has no meaning for an instruction. -/
inductive Refusal where
  /-- An arm of `exec` not written yet. Raised by no arm: every instruction has its meaning. SAFE: it stops. -/
  | notModelled (mnemonic : String)
  deriving DecidableEq, Repr

/-- The state record of 10_state.md R37. -/
structure State where
  /-- The accumulator A (R21). -/
  a : Byte
  /-- General register B (R21). -/
  b : Byte
  /-- General register C (R21). -/
  c : Byte
  /-- General register D (R21). -/
  d : Byte
  /-- General register E (R21). -/
  e : Byte
  /-- General register H (R21). -/
  h : Byte
  /-- General register L (R21). -/
  l : Byte
  /-- The flags register F, packed: Z, N, H, C at bits 7..4, bits 3..0 zero (R25, R26; log 6). -/
  f : Byte
  /-- The stack pointer SP (R30). -/
  sp : Word
  /-- The program counter PC (R31). -/
  pc : Word
  /-- The 65536-byte memory surface (20_memory.md R50, R57). -/
  mem : Memory
  /-- The cycle accumulator CYC, unbounded (40_step.md R108). -/
  cyc : Nat
  /-- The fault latch (60_exceptions.md R183): none when clear. -/
  fault : Option Fault
  deriving DecidableEq, Repr

/-- The three outcomes of a step of this machine. -/
abbrev Outcome := Host.Outcome State Fault Refusal

/-- Reset with the launch memory `mem0` (70_reset_and_hazards.md R200; 10_state.md R34): every register zero, CYC zero, the latch
clear, memory equal to the parameter `mem0` (92_eei_decisions.md D6). -/
def State.resetWith (mem0 : Memory) : State where
  a := 0x00#8
  b := 0x00#8
  c := 0x00#8
  d := 0x00#8
  e := 0x00#8
  h := 0x00#8
  l := 0x00#8
  f := 0x00#8
  sp := 0x0000#16
  pc := Config.resetEntry
  mem := mem0
  cyc := 0
  fault := none

/-- The machine right after reset, with no byte of memory listed (log 1). -/
def State.reset : State := State.resetWith []

end Sys2Proof.Machine
end

