-- ==== Sys2Proof/Machine/Ops.lean ====
section
/-! DEFINITION. The named operations over memory and registers, taking a fault, and the byte-length and cycle sequencer that
ends every step. Every write of F, by any path, goes through `State.writeF` (10_state.md R26). -/

namespace Sys2Proof.Machine

/-! ## Bytes and words -/

/-- `hi : lo`, the word `hi * 256 + lo` (00_scope.md R6). -/
def joinBytes (hi lo : Byte) : Word := hi ++ lo

/-- Bits 15..8 of a word (10_state.md R23). -/
def highByte (w : Word) : Byte := w.extractLsb' 8 8

/-- Bits 7..0 of a word (10_state.md R23). -/
def lowByte (w : Word) : Byte := w.extractLsb' 0 8

/-! ## The memory surface (20_memory.md) -/

/-- What an address that is not listed reads as. DESIGN CHOICE (log 1, unsafe): the spec leaves the launch memory `mem0` open. -/
def Memory.unlistedByte : Byte := 0x00#8

/-- The byte at an address (20_memory.md R57). -/
def Memory.read : Memory → Nat → Byte
  | [], _ => Memory.unlistedByte
  | (k, v) :: m, addr => if k = addr then v else Memory.read m addr

/-- The memory with no entry at an address. -/
def Memory.erase : Memory → Nat → Memory
  | [], _ => []
  | (k, v) :: m, addr => if k = addr then Memory.erase m addr else (k, v) :: Memory.erase m addr

/-- The memory with the entry `(addr, value)` in its place. -/
def Memory.insert : Memory → Nat → Byte → Memory
  | [], addr, value => [(addr, value)]
  | (k, v) :: m, addr, value =>
    if addr < k then (addr, value) :: (k, v) :: m
    else if k = addr then (addr, value) :: m
    else (k, v) :: Memory.insert m addr value

/-- A write sets one byte and changes no other address (20_memory.md R57); writing what an unlisted address reads as removes
the entry, so that equal memories are equal data. -/
def Memory.write (m : Memory) (addr : Nat) (value : Byte) : Memory :=
  if value = Memory.unlistedByte then m.erase addr else m.insert addr value

/-- Addresses rise strictly from `lo` on, are inside the address space, and no entry equals `unlistedByte`. -/
def Memory.canonicalFrom : Nat → Memory → Bool
  | _, [] => true
  | lo, (k, v) :: m =>
    decide (lo ≤ k) && decide (k < Config.addressSpace) && decide (v ≠ Memory.unlistedByte) && Memory.canonicalFrom (k + 1) m

/-- The canonical form of memory. -/
def Memory.wf (m : Memory) : Bool := Memory.canonicalFrom 0 m

/-- `MemRead(addr, 1)` (20_memory.md R50, R57). -/
def State.readByte (s : State) (addr : Word) : Byte := s.mem.read addr.toNat

/-- `MemWrite(addr, 1, value)` (20_memory.md R50, R57). -/
def State.writeByte (s : State) (addr : Word) (value : Byte) : State := { s with mem := s.mem.write addr.toNat value }

/-- Consecutive bytes from an address on, addresses modulo 65536 (20_memory.md R56). -/
def State.writeBytes (s : State) (addr : Word) : List Byte → State
  | [] => s
  | v :: vs => (s.writeByte addr v).writeBytes (addr + 1) vs

/-! ## The register file (10_state.md) -/

/-- `read(register)` of 10_state.md R21. -/
def State.readReg (s : State) : Reg8 → Byte
  | .a => s.a
  | .b => s.b
  | .c => s.c
  | .d => s.d
  | .e => s.e
  | .h => s.h
  | .l => s.l

/-- `write(register, byte)` of 10_state.md R21. -/
def State.writeReg (s : State) (r : Reg8) (v : Byte) : State :=
  match r with
  | .a => { s with a := v }
  | .b => { s with b := v }
  | .c => { s with c := v }
  | .d => { s with d := v }
  | .e => { s with e := v }
  | .h => { s with h := v }
  | .l => { s with l := v }

/-- The one write of F: the low nibble is masked to zero (10_state.md R26). -/
def State.writeF (s : State) (v : Byte) : State := { s with f := v &&& 0xF0#8 }

/-- `readPair(pair)`, high byte first (10_state.md R23, R24). -/
def State.readPair (s : State) : Pair → Word
  | .af => joinBytes s.a s.f
  | .bc => joinBytes s.b s.c
  | .de => joinBytes s.d s.e
  | .hl => joinBytes s.h s.l

/-- `writePair(pair, word)` (10_state.md R23, R24). -/
def State.writePair (s : State) (p : Pair) (w : Word) : State :=
  match p with
  | .af => { s with a := highByte w }.writeF (lowByte w)
  | .bc => { s with b := highByte w, c := lowByte w }
  | .de => { s with d := highByte w, e := lowByte w }
  | .hl => { s with h := highByte w, l := lowByte w }

/-- A 16-bit register of the vocabulary, read (40_step.md R104). -/
def State.readWide (s : State) : WideReg → Word
  | .af => s.readPair .af
  | .bc => s.readPair .bc
  | .de => s.readPair .de
  | .hl => s.readPair .hl
  | .sp => s.sp

/-- A 16-bit register of the vocabulary, written (40_step.md R104). -/
def State.writeWide (s : State) (r : WideReg) (w : Word) : State :=
  match r with
  | .af => s.writePair .af w
  | .bc => s.writePair .bc w
  | .de => s.writePair .de w
  | .hl => s.writePair .hl w
  | .sp => { s with sp := w }

/-! ## Fetch -/

/-- The opcode fetch `MemRead(PC, 1)` (40_step.md R101). -/
def State.fetchOpcode (s : State) : Byte := s.readByte s.pc

/-! ## Taking a fault -/

/-- Fault entry (60_exceptions.md R183): the fault is recorded in the fault latch and nothing else changes, so PC still holds the
address of the failing opcode. There is no return from a fault (R185): only reset clears the latch. -/
def takeFault (fault : Fault) (s : State) : State := { s with fault := some fault }

/-- The fault's numeric code (60_exceptions.md R180). -/
def Fault.code : Fault → Nat
  | .decodeFailure _ _ => 1
  | .engineContractViolation _ => 2

/-! ## The byte-length and cycle sequencer -/

/-- What `execute` returns (40_step.md R102): the register file and memory it leaves, `bytesConsumed` and `cyclesConsumed`. -/
structure Executed where
  state : State
  bytesConsumed : Nat
  cyclesConsumed : Nat
  deriving DecidableEq, Repr

/-- The end of a step (40_step.md R101): PC advances by the length modulo 65536 (R31, R56), CYC by the cost (R108). `execute` itself
writes neither (R102), so the PC of `r.state` is still the opcode's address. -/
def retire (r : Executed) : State :=
  { r.state with
    pc := r.state.pc + BitVec.ofNat 16 r.bytesConsumed
    cyc := r.state.cyc + r.cyclesConsumed }

/-- An instruction that was executed completes its step: a next state (40_step.md R101). -/
def complete (r : Executed) : Outcome := .next (retire r)

end Sys2Proof.Machine
end

