-- ==== Sys2Proof/Machine/Flags.lean ====
section
/-! DEFINITION. The flags register's accessors (10_state.md R25 to R28) and the results and flags of the arithmetic family
(41_alu.md R121 to R130). Each computation is exact on unbounded integers and narrows at the end (00_scope.md R6). -/

namespace Sys2Proof.Machine

/-! ## Accessors of F -/

/-- The bit of F a flag stands at (10_state.md R25, R27). -/
def flagBit : Flag → Nat
  | .z => 7
  | .n => 6
  | .h => 5
  | .c => 4

/-- `bit(b)` at bit position `pos` of a byte (00_scope.md R6). -/
def bitAt (pos : Nat) (b : Bool) : Byte := if b then 1#8 <<< pos else 0#8

/-- The byte that packs four flags (10_state.md R27, `setFlags`). -/
def packFlags (z n h c : Bool) : Byte := bitAt 7 z ||| bitAt 6 n ||| bitAt 5 h ||| bitAt 4 c

/-- `readFlag(k)` (10_state.md R27). -/
def State.readFlag (s : State) (k : Flag) : Bool := s.f.getLsbD (flagBit k)

/-- `writeFlag(k, b)` (10_state.md R27): a register-file operation no opcode uses. -/
def State.writeFlag (s : State) (k : Flag) (b : Bool) : State :=
  s.writeF ((s.f &&& ~~~(1#8 <<< (flagBit k))) ||| bitAt (flagBit k) b)

/-- `setFlags(z, n, h, c)`, all four at once (10_state.md R27). -/
def State.setFlags (s : State) (z n h c : Bool) : State := s.writeF (packFlags z n h c)

/-! ## Results of the arithmetic family -/

/-- An 8-bit result and the four flags written with it. -/
structure AluResult where
  result : Byte
  z : Bool
  n : Bool
  h : Bool
  c : Bool
  deriving DecidableEq, Repr

/-- The low nibble of a byte as a number (41_alu.md R129). -/
def lowNibble (v : Byte) : Nat := v.toNat % 16

/-- The incoming carry as a number, 0 or 1 (00_scope.md R6). -/
def carryIn (c : Bool) : Nat := if c then 1 else 0

/-- `a + v + c`: the sum modulo 256, the carry out of bit 3 from the operands' low nibbles (41_alu.md R129), the carry out of bit 7
(R121, R122). -/
def addWithCarry (a v : Byte) (c : Nat) : AluResult where
  result := BitVec.ofNat 8 (a.toNat + v.toNat + c)
  z := BitVec.ofNat 8 (a.toNat + v.toNat + c) == 0#8
  n := false
  h := decide (lowNibble a + lowNibble v + c > 15)
  c := decide (a.toNat + v.toNat + c > 255)

/-- `a - v - c`: the difference modulo 256, the borrow at bit 4 from the operands' low nibbles (41_alu.md R129), the borrow of the
whole subtraction, with the subtrahend `v + c` not wrapped (R123, R124; 92_eei_decisions.md D3). -/
def subWithBorrow (a v : Byte) (c : Nat) : AluResult where
  result := BitVec.ofInt 8 ((a.toNat : Int) - (v.toNat : Int) - (c : Int))
  z := BitVec.ofInt 8 ((a.toNat : Int) - (v.toNat : Int) - (c : Int)) == 0#8
  n := true
  h := decide (lowNibble a < lowNibble v + c)
  c := decide (a.toNat < v.toNat + c)

/-- A bitwise result: N and C are forced to 0, H to the operation's constant (41_alu.md R125 to R127). -/
def bitwiseResult (result : Byte) (h : Bool) : AluResult where
  result := result
  z := result == 0#8
  n := false
  h := h
  c := false

/-- ADD (41_alu.md R121): the incoming carry is ignored. -/
def aluAdd (a v : Byte) : AluResult := addWithCarry a v 0

/-- ADC (41_alu.md R122). -/
def aluAddCarry (a v : Byte) (c : Bool) : AluResult := addWithCarry a v (carryIn c)

/-- SUB (41_alu.md R123): the incoming carry is ignored. -/
def aluSub (a v : Byte) : AluResult := subWithBorrow a v 0

/-- SBC (41_alu.md R124). -/
def aluSubCarry (a v : Byte) (c : Bool) : AluResult := subWithBorrow a v (carryIn c)

/-- AND (41_alu.md R125): H = 1. -/
def aluAnd (a v : Byte) : AluResult := bitwiseResult (a &&& v) true

/-- XOR (41_alu.md R126): H = 0. -/
def aluXor (a v : Byte) : AluResult := bitwiseResult (a ^^^ v) false

/-- OR (41_alu.md R127): H = 0. -/
def aluOr (a v : Byte) : AluResult := bitwiseResult (a ||| v) false

end Sys2Proof.Machine
end

