-- ==== Sys2Proof/Machine/Operands.lean ====
section
/-! DEFINITION. The addressing-mode controller (40_step.md R103 to R105, 42_load.md R159): every operand form as a value read and
as a place written, and the length and cycle cost each form gives (R106, R107). -/

namespace Sys2Proof.Machine

/-! ## Immediates (30_encoding.md R77) -/

/-- The byte following the opcode, at `PC + 1` modulo 65536 (30_encoding.md R77, 20_memory.md R56). -/
def State.imm8 (s : State) : Byte := s.readByte (s.pc + 1)

/-- The two bytes following the opcode, low byte first (30_encoding.md R77, 20_memory.md R54, R56). -/
def State.imm16 (s : State) : Word := joinBytes (s.readByte (s.pc + 2)) (s.readByte (s.pc + 1))

/-! ## Arithmetic targets (40_step.md R103) -/

/-- `operand(t)`: a register, or the memory byte at HL (40_step.md R103). -/
def State.operand (s : State) : ArithmeticTarget → Byte
  | .b => s.b
  | .c => s.c
  | .d => s.d
  | .e => s.e
  | .h => s.h
  | .l => s.l
  | .indirectHL => s.readByte (s.readPair .hl)
  | .a => s.a

/-- The arithmetic family's cycle cost: 1 for a register, 2 for (HL) (40_step.md R107). -/
def targetCycles : ArithmeticTarget → Nat
  | .indirectHL => 2
  | .b | .c | .d | .e | .h | .l | .a => 1

/-! ## Load targets (40_step.md R104) -/

/-- A value moved by a load, at its own width (42_load.md R150: no load extends a value). -/
inductive LoadValue where
  | byte (v : Byte)
  | word (w : Word)
  deriving DecidableEq, Repr

/-- A LoadTarget as a source (40_step.md R104, column "as source"): none for the rows marked "not used" and for AF. -/
def State.loadSource (s : State) : LoadTarget → Option LoadValue
  | .reg r => some (.byte (s.readReg r))
  | .wide .af => none
  | .wide .bc => some (.word (s.readWide .bc))
  | .wide .de => some (.word (s.readWide .de))
  | .wide .hl => some (.word (s.readWide .hl))
  | .wide .sp => some (.word (s.readWide .sp))
  | .imm8 => some (.byte s.imm8)
  | .imm16 => some (.word s.imm16)
  | .memAt .af => none
  | .memAt .bc => some (.byte (s.readByte (s.readPair .bc)))
  | .memAt .de => some (.byte (s.readByte (s.readPair .de)))
  | .memAt .hl => some (.byte (s.readByte (s.readPair .hl)))
  | .memHLInc => none
  | .memHLDec => none

/-- A byte stored at HL, and HL changed only after the access (40_step.md R104, 70_reset_and_hazards.md R205): `hl'` is HL's new
value. -/
def State.storeThenSetHL (s : State) (v : Byte) (hl' : Word) : State := (s.writeByte (s.readPair .hl) v).writePair .hl hl'

/-- A LoadTarget as a destination (40_step.md R104, column "as destination"): none for an immediate, for AF, and for a value of
another width. -/
def State.loadDestination (s : State) : LoadTarget → LoadValue → Option State
  | .reg r, .byte v => some (s.writeReg r v)
  | .wide .bc, .word w => some (s.writeWide .bc w)
  | .wide .de, .word w => some (s.writeWide .de w)
  | .wide .hl, .word w => some (s.writeWide .hl w)
  | .wide .sp, .word w => some (s.writeWide .sp w)
  | .memAt .bc, .byte v => some (s.writeByte (s.readPair .bc) v)
  | .memAt .de, .byte v => some (s.writeByte (s.readPair .de) v)
  | .memAt .hl, .byte v => some (s.writeByte (s.readPair .hl) v)
  | .memHLInc, .byte v => some (s.storeThenSetHL v (s.readPair .hl + 1))
  | .memHLDec, .byte v => some (s.storeThenSetHL v (s.readPair .hl - 1))
  | _, _ => none

/-- The load family's byte length by its source (40_step.md R106): 2 with an 8-bit immediate, 3 with a 16-bit immediate, else 1. -/
def loadBytes (src : LoadTarget) : Nat :=
  match src with
  | .imm8 => 2
  | .imm16 => 3
  | .reg _ | .wide _ | .memAt _ | .memHLInc | .memHLDec => 1

/-- The register-indirect forms (40_step.md R104). -/
def isIndirect : LoadTarget → Bool
  | .memAt _ | .memHLInc | .memHLDec => true
  | .reg _ | .wide _ | .imm8 | .imm16 => false

/-- The load family's cycle cost (40_step.md R107): 3 with a 16-bit immediate, 2 for the other indirect or immediate-bearing forms,
else 1. -/
def loadCycles (dst src : LoadTarget) : Nat :=
  if src = .imm16 then 3
  else if src = .imm8 ∨ isIndirect src ∨ isIndirect dst then 2
  else 1

end Sys2Proof.Machine
end

