-- ==== Sys2Proof/Machine/Arithmetic.lean ====
section
/-! DEFINITION. The arithmetic family, opcodes 0x80 to 0xBF (41_alu.md R120 to R130). The eight operations are written once, over any
operand, as the `execute` arm of their rule; each instruction's meaning is that arm with its operand, and the end of the
step. -/

namespace Sys2Proof.Machine

/-! ## The operations -/

/-- The family's result goes to A and all four flags are written; length 1, cost by the operand (41_alu.md R120). -/
def writeResult (r : AluResult) (t : ArithmeticTarget) (s : State) : Executed where
  state := (s.writeReg .a r.result).setFlags r.z r.n r.h r.c
  bytesConsumed := 1
  cyclesConsumed := targetCycles t

/-- CP writes no register: only the four flags (41_alu.md R120, R128). -/
def writeFlagsOnly (r : AluResult) (t : ArithmeticTarget) (s : State) : Executed where
  state := s.setFlags r.z r.n r.h r.c
  bytesConsumed := 1
  cyclesConsumed := targetCycles t

/-- ADD A,r (41_alu.md R121). -/
def executeAdd (t : ArithmeticTarget) (s : State) : Executed := writeResult (aluAdd s.a (s.operand t)) t s

/-- ADC A,r (41_alu.md R122): the carry is read before any write (40_step.md R105). -/
def executeAddCarry (t : ArithmeticTarget) (s : State) : Executed :=
  writeResult (aluAddCarry s.a (s.operand t) (s.readFlag .c)) t s

/-- SUB r (41_alu.md R123). -/
def executeSub (t : ArithmeticTarget) (s : State) : Executed := writeResult (aluSub s.a (s.operand t)) t s

/-- SBC A,r (41_alu.md R124): the carry is read before any write (40_step.md R105). -/
def executeSubCarry (t : ArithmeticTarget) (s : State) : Executed :=
  writeResult (aluSubCarry s.a (s.operand t) (s.readFlag .c)) t s

/-- AND r (41_alu.md R125). -/
def executeAnd (t : ArithmeticTarget) (s : State) : Executed := writeResult (aluAnd s.a (s.operand t)) t s

/-- XOR r (41_alu.md R126). -/
def executeXor (t : ArithmeticTarget) (s : State) : Executed := writeResult (aluXor s.a (s.operand t)) t s

/-- OR r (41_alu.md R127). -/
def executeOr (t : ArithmeticTarget) (s : State) : Executed := writeResult (aluOr s.a (s.operand t)) t s

/-- CP r (41_alu.md R128): the flags of SUB, with the result discarded. -/
def executeCompare (t : ArithmeticTarget) (s : State) : Executed := writeFlagsOnly (aluSub s.a (s.operand t)) t s

/-! ## The meanings -/

/-- ADD A,B, opcode 0x80 (41_alu.md R121). -/
def execAddAB (s : State) : Outcome := complete (executeAdd .b s)
/-- ADD A,C, opcode 0x81 (41_alu.md R121). -/
def execAddAC (s : State) : Outcome := complete (executeAdd .c s)
/-- ADD A,D, opcode 0x82 (41_alu.md R121). -/
def execAddAD (s : State) : Outcome := complete (executeAdd .d s)
/-- ADD A,E, opcode 0x83 (41_alu.md R121). -/
def execAddAE (s : State) : Outcome := complete (executeAdd .e s)
/-- ADD A,H, opcode 0x84 (41_alu.md R121). -/
def execAddAH (s : State) : Outcome := complete (executeAdd .h s)
/-- ADD A,L, opcode 0x85 (41_alu.md R121). -/
def execAddAL (s : State) : Outcome := complete (executeAdd .l s)
/-- ADD A,(HL), opcode 0x86 (41_alu.md R121). -/
def execAddAMemHL (s : State) : Outcome := complete (executeAdd .indirectHL s)
/-- ADD A,A, opcode 0x87 (41_alu.md R121). -/
def execAddAA (s : State) : Outcome := complete (executeAdd .a s)

/-- ADC A,B, opcode 0x88 (41_alu.md R122). -/
def execAdcAB (s : State) : Outcome := complete (executeAddCarry .b s)
/-- ADC A,C, opcode 0x89 (41_alu.md R122). -/
def execAdcAC (s : State) : Outcome := complete (executeAddCarry .c s)
/-- ADC A,D, opcode 0x8A (41_alu.md R122). -/
def execAdcAD (s : State) : Outcome := complete (executeAddCarry .d s)
/-- ADC A,E, opcode 0x8B (41_alu.md R122). -/
def execAdcAE (s : State) : Outcome := complete (executeAddCarry .e s)
/-- ADC A,H, opcode 0x8C (41_alu.md R122). -/
def execAdcAH (s : State) : Outcome := complete (executeAddCarry .h s)
/-- ADC A,L, opcode 0x8D (41_alu.md R122). -/
def execAdcAL (s : State) : Outcome := complete (executeAddCarry .l s)
/-- ADC A,(HL), opcode 0x8E (41_alu.md R122). -/
def execAdcAMemHL (s : State) : Outcome := complete (executeAddCarry .indirectHL s)
/-- ADC A,A, opcode 0x8F (41_alu.md R122). -/
def execAdcAA (s : State) : Outcome := complete (executeAddCarry .a s)

/-- SUB B, opcode 0x90 (41_alu.md R123). -/
def execSubB (s : State) : Outcome := complete (executeSub .b s)
/-- SUB C, opcode 0x91 (41_alu.md R123). -/
def execSubC (s : State) : Outcome := complete (executeSub .c s)
/-- SUB D, opcode 0x92 (41_alu.md R123). -/
def execSubD (s : State) : Outcome := complete (executeSub .d s)
/-- SUB E, opcode 0x93 (41_alu.md R123). -/
def execSubE (s : State) : Outcome := complete (executeSub .e s)
/-- SUB H, opcode 0x94 (41_alu.md R123). -/
def execSubH (s : State) : Outcome := complete (executeSub .h s)
/-- SUB L, opcode 0x95 (41_alu.md R123). -/
def execSubL (s : State) : Outcome := complete (executeSub .l s)
/-- SUB (HL), opcode 0x96 (41_alu.md R123). -/
def execSubMemHL (s : State) : Outcome := complete (executeSub .indirectHL s)
/-- SUB A, opcode 0x97 (41_alu.md R123). -/
def execSubA (s : State) : Outcome := complete (executeSub .a s)

/-- SBC A,B, opcode 0x98 (41_alu.md R124). -/
def execSbcAB (s : State) : Outcome := complete (executeSubCarry .b s)
/-- SBC A,C, opcode 0x99 (41_alu.md R124). -/
def execSbcAC (s : State) : Outcome := complete (executeSubCarry .c s)
/-- SBC A,D, opcode 0x9A (41_alu.md R124). -/
def execSbcAD (s : State) : Outcome := complete (executeSubCarry .d s)
/-- SBC A,E, opcode 0x9B (41_alu.md R124). -/
def execSbcAE (s : State) : Outcome := complete (executeSubCarry .e s)
/-- SBC A,H, opcode 0x9C (41_alu.md R124). -/
def execSbcAH (s : State) : Outcome := complete (executeSubCarry .h s)
/-- SBC A,L, opcode 0x9D (41_alu.md R124). -/
def execSbcAL (s : State) : Outcome := complete (executeSubCarry .l s)
/-- SBC A,(HL), opcode 0x9E (41_alu.md R124). -/
def execSbcAMemHL (s : State) : Outcome := complete (executeSubCarry .indirectHL s)
/-- SBC A,A, opcode 0x9F (41_alu.md R124). -/
def execSbcAA (s : State) : Outcome := complete (executeSubCarry .a s)

/-- AND B, opcode 0xA0 (41_alu.md R125). -/
def execAndB (s : State) : Outcome := complete (executeAnd .b s)
/-- AND C, opcode 0xA1 (41_alu.md R125). -/
def execAndC (s : State) : Outcome := complete (executeAnd .c s)
/-- AND D, opcode 0xA2 (41_alu.md R125). -/
def execAndD (s : State) : Outcome := complete (executeAnd .d s)
/-- AND E, opcode 0xA3 (41_alu.md R125). -/
def execAndE (s : State) : Outcome := complete (executeAnd .e s)
/-- AND H, opcode 0xA4 (41_alu.md R125). -/
def execAndH (s : State) : Outcome := complete (executeAnd .h s)
/-- AND L, opcode 0xA5 (41_alu.md R125). -/
def execAndL (s : State) : Outcome := complete (executeAnd .l s)
/-- AND (HL), opcode 0xA6 (41_alu.md R125). -/
def execAndMemHL (s : State) : Outcome := complete (executeAnd .indirectHL s)
/-- AND A, opcode 0xA7 (41_alu.md R125). -/
def execAndA (s : State) : Outcome := complete (executeAnd .a s)

/-- XOR B, opcode 0xA8 (41_alu.md R126). -/
def execXorB (s : State) : Outcome := complete (executeXor .b s)
/-- XOR C, opcode 0xA9 (41_alu.md R126). -/
def execXorC (s : State) : Outcome := complete (executeXor .c s)
/-- XOR D, opcode 0xAA (41_alu.md R126). -/
def execXorD (s : State) : Outcome := complete (executeXor .d s)
/-- XOR E, opcode 0xAB (41_alu.md R126). -/
def execXorE (s : State) : Outcome := complete (executeXor .e s)
/-- XOR H, opcode 0xAC (41_alu.md R126). -/
def execXorH (s : State) : Outcome := complete (executeXor .h s)
/-- XOR L, opcode 0xAD (41_alu.md R126). -/
def execXorL (s : State) : Outcome := complete (executeXor .l s)
/-- XOR (HL), opcode 0xAE (41_alu.md R126). -/
def execXorMemHL (s : State) : Outcome := complete (executeXor .indirectHL s)
/-- XOR A, opcode 0xAF (41_alu.md R126). -/
def execXorA (s : State) : Outcome := complete (executeXor .a s)

/-- OR B, opcode 0xB0 (41_alu.md R127). -/
def execOrB (s : State) : Outcome := complete (executeOr .b s)
/-- OR C, opcode 0xB1 (41_alu.md R127). -/
def execOrC (s : State) : Outcome := complete (executeOr .c s)
/-- OR D, opcode 0xB2 (41_alu.md R127). -/
def execOrD (s : State) : Outcome := complete (executeOr .d s)
/-- OR E, opcode 0xB3 (41_alu.md R127). -/
def execOrE (s : State) : Outcome := complete (executeOr .e s)
/-- OR H, opcode 0xB4 (41_alu.md R127). -/
def execOrH (s : State) : Outcome := complete (executeOr .h s)
/-- OR L, opcode 0xB5 (41_alu.md R127). -/
def execOrL (s : State) : Outcome := complete (executeOr .l s)
/-- OR (HL), opcode 0xB6 (41_alu.md R127). -/
def execOrMemHL (s : State) : Outcome := complete (executeOr .indirectHL s)
/-- OR A, opcode 0xB7 (41_alu.md R127). -/
def execOrA (s : State) : Outcome := complete (executeOr .a s)

/-- CP B, opcode 0xB8 (41_alu.md R128). -/
def execCpB (s : State) : Outcome := complete (executeCompare .b s)
/-- CP C, opcode 0xB9 (41_alu.md R128). -/
def execCpC (s : State) : Outcome := complete (executeCompare .c s)
/-- CP D, opcode 0xBA (41_alu.md R128). -/
def execCpD (s : State) : Outcome := complete (executeCompare .d s)
/-- CP E, opcode 0xBB (41_alu.md R128). -/
def execCpE (s : State) : Outcome := complete (executeCompare .e s)
/-- CP H, opcode 0xBC (41_alu.md R128). -/
def execCpH (s : State) : Outcome := complete (executeCompare .h s)
/-- CP L, opcode 0xBD (41_alu.md R128). -/
def execCpL (s : State) : Outcome := complete (executeCompare .l s)
/-- CP (HL), opcode 0xBE (41_alu.md R128). -/
def execCpMemHL (s : State) : Outcome := complete (executeCompare .indirectHL s)
/-- CP A, opcode 0xBF (41_alu.md R128). -/
def execCpA (s : State) : Outcome := complete (executeCompare .a s)

end Sys2Proof.Machine
end

