-- ==== Sys2Proof/Machine/Load.lean ====
section
/-! DEFINITION. The load family (42_load.md R150 to R157). Each form is written once, as the `execute` arm of its rule; each
instruction's meaning is that arm, and the end of the step. No load writes a flag (R150). -/

namespace Sys2Proof.Machine

/-! ## The forms -/

/-- LD rr,d16 (42_load.md R151): length 3, cost 3. -/
def executeLoadWide (w : WideReg) (s : State) : Executed where
  state := s.writeWide w s.imm16
  bytesConsumed := 3
  cyclesConsumed := 3

/-- LD (BC),A and LD (DE),A (42_load.md R152): the pair is not changed; length 1, cost 2. -/
def executeStoreA (p : Pair) (s : State) : Executed where
  state := s.writeByte (s.readPair p) s.a
  bytesConsumed := 1
  cyclesConsumed := 2

/-- LD (HL+),A (42_load.md R153): write, then increment HL modulo 65536; length 1, cost 2. -/
def executeStoreAInc (s : State) : Executed where
  state := s.storeThenSetHL s.a (s.readPair .hl + 1)
  bytesConsumed := 1
  cyclesConsumed := 2

/-- LD (HL-),A (42_load.md R154): write, then decrement HL modulo 65536; length 1, cost 2. -/
def executeStoreADec (s : State) : Executed where
  state := s.storeThenSetHL s.a (s.readPair .hl - 1)
  bytesConsumed := 1
  cyclesConsumed := 2

/-- LD r,d8 (42_load.md R155): length 2, cost 2. -/
def executeLoadImm8 (r : Reg8) (s : State) : Executed where
  state := s.writeReg r s.imm8
  bytesConsumed := 2
  cyclesConsumed := 2

/-- LD (HL),d8 (42_load.md R156): HL is not changed; length 2, cost 2 (92_eei_decisions.md D9). -/
def executeStoreImm8 (s : State) : Executed where
  state := s.writeByte (s.readPair .hl) s.imm8
  bytesConsumed := 2
  cyclesConsumed := 2

/-! ## The meanings -/

/-- LD BC,d16, opcode 0x01 (42_load.md R151). -/
def execLdBCd16 (s : State) : Outcome := complete (executeLoadWide .bc s)

/-- LD DE,d16, opcode 0x11 (42_load.md R151). -/
def execLdDEd16 (s : State) : Outcome := complete (executeLoadWide .de s)

/-- LD HL,d16, opcode 0x21 (42_load.md R151). -/
def execLdHLd16 (s : State) : Outcome := complete (executeLoadWide .hl s)

/-- LD SP,d16, opcode 0x31 (42_load.md R151). -/
def execLdSPd16 (s : State) : Outcome := complete (executeLoadWide .sp s)

/-- LD (BC),A, opcode 0x02 (42_load.md R152). -/
def execLdMemBCA (s : State) : Outcome := complete (executeStoreA .bc s)

/-- LD (DE),A, opcode 0x12 (42_load.md R152). -/
def execLdMemDEA (s : State) : Outcome := complete (executeStoreA .de s)

/-- LD (HL+),A, opcode 0x22 (42_load.md R153). -/
def execLdMemHLIncA (s : State) : Outcome := complete (executeStoreAInc s)

/-- LD (HL-),A, opcode 0x32 (42_load.md R154). -/
def execLdMemHLDecA (s : State) : Outcome := complete (executeStoreADec s)

/-- LD B,d8, opcode 0x06 (42_load.md R155). -/
def execLdBd8 (s : State) : Outcome := complete (executeLoadImm8 .b s)

/-- LD D,d8, opcode 0x16 (42_load.md R155). -/
def execLdDd8 (s : State) : Outcome := complete (executeLoadImm8 .d s)

/-- LD H,d8, opcode 0x26 (42_load.md R155). -/
def execLdHd8 (s : State) : Outcome := complete (executeLoadImm8 .h s)

/-- LD (HL),d8, opcode 0x36 (42_load.md R156). -/
def execLdMemHLd8 (s : State) : Outcome := complete (executeStoreImm8 s)

end Sys2Proof.Machine
end

