-- ==== Sys2Proof/Machine/Dispatch.lean ====
section
/-! DEFINITION. One arm per instruction: the rest of a step after decoding (40_step.md R101), that is `execute` and the advance of PC
and CYC (log 5). -/

namespace Sys2Proof.Machine

def exec (i : Instr) (s : State) : Host.Outcome State Fault Refusal :=
  match i with
  -- 41_alu.md R121
  | .addAB => Sys2Proof.Machine.execAddAB s
  | .addAC => Sys2Proof.Machine.execAddAC s
  | .addAD => Sys2Proof.Machine.execAddAD s
  | .addAE => Sys2Proof.Machine.execAddAE s
  | .addAH => Sys2Proof.Machine.execAddAH s
  | .addAL => Sys2Proof.Machine.execAddAL s
  | .addAMemHL => Sys2Proof.Machine.execAddAMemHL s
  | .addAA => Sys2Proof.Machine.execAddAA s
  -- 41_alu.md R122
  | .adcAB => Sys2Proof.Machine.execAdcAB s
  | .adcAC => Sys2Proof.Machine.execAdcAC s
  | .adcAD => Sys2Proof.Machine.execAdcAD s
  | .adcAE => Sys2Proof.Machine.execAdcAE s
  | .adcAH => Sys2Proof.Machine.execAdcAH s
  | .adcAL => Sys2Proof.Machine.execAdcAL s
  | .adcAMemHL => Sys2Proof.Machine.execAdcAMemHL s
  | .adcAA => Sys2Proof.Machine.execAdcAA s
  -- 41_alu.md R123
  | .subB => Sys2Proof.Machine.execSubB s
  | .subC => Sys2Proof.Machine.execSubC s
  | .subD => Sys2Proof.Machine.execSubD s
  | .subE => Sys2Proof.Machine.execSubE s
  | .subH => Sys2Proof.Machine.execSubH s
  | .subL => Sys2Proof.Machine.execSubL s
  | .subMemHL => Sys2Proof.Machine.execSubMemHL s
  | .subA => Sys2Proof.Machine.execSubA s
  -- 41_alu.md R124
  | .sbcAB => Sys2Proof.Machine.execSbcAB s
  | .sbcAC => Sys2Proof.Machine.execSbcAC s
  | .sbcAD => Sys2Proof.Machine.execSbcAD s
  | .sbcAE => Sys2Proof.Machine.execSbcAE s
  | .sbcAH => Sys2Proof.Machine.execSbcAH s
  | .sbcAL => Sys2Proof.Machine.execSbcAL s
  | .sbcAMemHL => Sys2Proof.Machine.execSbcAMemHL s
  | .sbcAA => Sys2Proof.Machine.execSbcAA s
  -- 41_alu.md R125
  | .andB => Sys2Proof.Machine.execAndB s
  | .andC => Sys2Proof.Machine.execAndC s
  | .andD => Sys2Proof.Machine.execAndD s
  | .andE => Sys2Proof.Machine.execAndE s
  | .andH => Sys2Proof.Machine.execAndH s
  | .andL => Sys2Proof.Machine.execAndL s
  | .andMemHL => Sys2Proof.Machine.execAndMemHL s
  | .andA => Sys2Proof.Machine.execAndA s
  -- 41_alu.md R126
  | .xorB => Sys2Proof.Machine.execXorB s
  | .xorC => Sys2Proof.Machine.execXorC s
  | .xorD => Sys2Proof.Machine.execXorD s
  | .xorE => Sys2Proof.Machine.execXorE s
  | .xorH => Sys2Proof.Machine.execXorH s
  | .xorL => Sys2Proof.Machine.execXorL s
  | .xorMemHL => Sys2Proof.Machine.execXorMemHL s
  | .xorA => Sys2Proof.Machine.execXorA s
  -- 41_alu.md R127
  | .orB => Sys2Proof.Machine.execOrB s
  | .orC => Sys2Proof.Machine.execOrC s
  | .orD => Sys2Proof.Machine.execOrD s
  | .orE => Sys2Proof.Machine.execOrE s
  | .orH => Sys2Proof.Machine.execOrH s
  | .orL => Sys2Proof.Machine.execOrL s
  | .orMemHL => Sys2Proof.Machine.execOrMemHL s
  | .orA => Sys2Proof.Machine.execOrA s
  -- 41_alu.md R128
  | .cpB => Sys2Proof.Machine.execCpB s
  | .cpC => Sys2Proof.Machine.execCpC s
  | .cpD => Sys2Proof.Machine.execCpD s
  | .cpE => Sys2Proof.Machine.execCpE s
  | .cpH => Sys2Proof.Machine.execCpH s
  | .cpL => Sys2Proof.Machine.execCpL s
  | .cpMemHL => Sys2Proof.Machine.execCpMemHL s
  | .cpA => Sys2Proof.Machine.execCpA s
  -- 42_load.md R151 to R156
  | .ldBCd16 => Sys2Proof.Machine.execLdBCd16 s
  | .ldDEd16 => Sys2Proof.Machine.execLdDEd16 s
  | .ldHLd16 => Sys2Proof.Machine.execLdHLd16 s
  | .ldSPd16 => Sys2Proof.Machine.execLdSPd16 s
  | .ldMemBCA => Sys2Proof.Machine.execLdMemBCA s
  | .ldMemDEA => Sys2Proof.Machine.execLdMemDEA s
  | .ldMemHLIncA => Sys2Proof.Machine.execLdMemHLIncA s
  | .ldMemHLDecA => Sys2Proof.Machine.execLdMemHLDecA s
  | .ldBd8 => Sys2Proof.Machine.execLdBd8 s
  | .ldDd8 => Sys2Proof.Machine.execLdDd8 s
  | .ldHd8 => Sys2Proof.Machine.execLdHd8 s
  | .ldMemHLd8 => Sys2Proof.Machine.execLdMemHLd8 s

end Sys2Proof.Machine
end

