-- ==== Sys2Proof/Machine/Step.lean ====
section
/-! DEFINITION. One step of the block (40_step.md R101), and the placing of an opcode-table word where the step fetches. -/

namespace Sys2Proof.Machine

/-- One step (40_step.md R101). With the fault latch set no step is enabled: the machine stops with the fault the latch holds
(60_exceptions.md R183, log 2). An opcode with no instruction takes DecodeFailure(opcode, PC) (R181, R183). Otherwise the decoded
instruction runs. -/
def step (s : State) : Host.Outcome State Fault Refusal :=
  match s.fault with
  | some fault => .fault fault
  | none =>
    match decode s.fetchOpcode with
    | .failure opcode => .next (takeFault (.decodeFailure opcode s.pc) s)
    | .instruction i => exec i s

/-- The state with an opcode-table word stored where the next step fetches: its three bytes (the longest instruction, 30_encoding.md
R70) from PC on, and the fault latch clear, without which no step fetches (log 3). -/
def State.withFetchWord (s : State) (nbits w : Nat) : State :=
  { s with fault := none }.writeBytes s.pc [tableByte nbits w 0, tableByte nbits w 1, tableByte nbits w 2]

end Sys2Proof.Machine
end

