-- ==== Sys2Proof/Machine/Driver.lean ====
section
/-! DEFINITION. The driver boundary `fetchAndExecute` (40_step.md R100). -/

namespace Sys2Proof.Machine

/-- `fetchAndExecute(registerFile, memory, programCounter)` (40_step.md R100): a step at the program counter the driver passes. The
argument and the PC register are the same register (90_conflicts.md C4); `newProgramCounter` is the next state's PC. -/
def fetchAndExecute (s : State) (programCounter : Word) : Outcome := step { s with pc := programCounter }

end Sys2Proof.Machine
end

