-- ==== Sys2Proof/Machine/Engine.lean ====
section
/-! DEFINITION. The `execute` interface (40_step.md R102) over the whole instruction vocabulary of 30_encoding.md R84: every
arithmetic value, every load of 42_load.md R158, among them LD r,r' (R157), which has no opcode; any other value is an engine
contract violation (60_exceptions.md R182). A load is executed here by the general addressing modes of 40_step.md R104, apart from
the forms of Machine/Load.lean. -/

namespace Sys2Proof.Machine

/-- What `execute` answers: its return value, or the violation with the instruction value it reports (60_exceptions.md R182). -/
inductive EngineResult where
  | done (r : Executed)
  | violation (instruction : Instruction)
  deriving DecidableEq, Repr

/-- `execute` on `Arith(op, t)`: every one has a meaning (42_load.md R158). -/
def executeArith (op : AluOp) (t : ArithmeticTarget) (s : State) : Executed :=
  match op with
  | .add => executeAdd t s
  | .addCarry => executeAddCarry t s
  | .sub => executeSub t s
  | .subCarry => executeSubCarry t s
  | .and => executeAnd t s
  | .xor => executeXor t s
  | .or => executeOr t s
  | .compare => executeCompare t s

/-- `execute` on `Load(dst, src)`: the source is resolved before the destination is written (40_step.md R105). -/
def executeLoad (dst src : LoadTarget) (s : State) : Option Executed :=
  match s.loadSource src with
  | none => none
  | some v =>
    match s.loadDestination dst v with
    | none => none
    | some s' => some { state := s', bytesConsumed := loadBytes src, cyclesConsumed := loadCycles dst src }

/-- `execute(instruction, registerFile, memory)` (40_step.md R102), with the engine-defined set of 42_load.md R158. It neither reads nor
writes the fault latch (log 9). -/
def execute (ins : Instruction) (s : State) : EngineResult :=
  match ins with
  | .arith op t => .done (executeArith op t s)
  | .load dst src =>
    if dst.definedPair src then
      match executeLoad dst src s with
      | some r => .done r
      | none => .violation ins
    else .violation ins

/-- The step of 40_step.md R101 after decoding, for a constructed instruction value: an engine contract violation is taken as a
fault (60_exceptions.md R182, R183); anything else completes. DESIGN CHOICE (log 9, unsafe): the spec does not say what the execute
interface does while the fault latch is already set (R101 and R183 speak of steps). Here the latch is not looked at: the value still
completes, the latch as it was, and a violation replaces the latched fault. -/
def applyInstruction (ins : Instruction) (s : State) : Outcome :=
  match execute ins s with
  | .done r => complete r
  | .violation i => .next (takeFault (.engineContractViolation i) s)

end Sys2Proof.Machine
end

