-- ==== Sys2Proof/Machine/Ports.lean ====
section
/-! DEFINITION. What one step shows on the block's ports (40_step.md R100): the memory transactions in their order (R109, 20_memory.md
R53), the new PC, the length and cost, and the fault report. These are outputs of a step, not state (log 7). -/

namespace Sys2Proof.Machine

/-- One transaction on the memory port, of one byte (20_memory.md R53). -/
inductive Access where
  /-- An instruction-fetch read: the opcode or an immediate byte. -/
  | fetch (addr : Word)
  /-- A data read. -/
  | read (addr : Word)
  /-- A data write. -/
  | write (addr : Word) (value : Byte)
  deriving DecidableEq, Repr

/-- The fetches of an instruction of a given length, in increasing address order (40_step.md R109; 20_memory.md R56). -/
def fetchesFrom (pc : Word) : Nat → List Access
  | 0 => []
  | n + 1 => .fetch pc :: fetchesFrom (pc + 1) n

/-- The one data access an instruction makes, if any (20_memory.md R53). -/
def dataAccesses (ins : Instruction) (s : State) : List Access :=
  match ins with
  | .arith _ .indirectHL => [.read (s.readPair .hl)]
  | .arith _ _ => []
  | .load (.memAt p) (.reg r) => [.write (s.readPair p) (s.readReg r)]
  | .load .memHLInc (.reg r) => [.write (s.readPair .hl) (s.readReg r)]
  | .load .memHLDec (.reg r) => [.write (s.readPair .hl) (s.readReg r)]
  | .load (.memAt p) .imm8 => [.write (s.readPair p) s.imm8]
  | .load _ _ => []

/-- The outputs of one step (40_step.md R100). -/
structure StepReport where
  accesses : List Access
  newPc : Word
  bytesConsumed : Nat
  cyclesConsumed : Nat
  fault : Option Fault
  deriving DecidableEq, Repr

/-- What a step reports (40_step.md R100, R109): with the latch set nothing happens and the latched fault is shown; an undefined opcode
makes one read (20_memory.md R53) and reports DecodeFailure. -/
def report (s : State) : StepReport :=
  match s.fault with
  | some fault => ⟨[], s.pc, 0, 0, some fault⟩
  | none =>
    match decode s.fetchOpcode with
    | .failure opcode => ⟨[.fetch s.pc], s.pc, 0, 0, some (.decodeFailure opcode s.pc)⟩
    | .instruction i =>
      match execute i.toInstruction s with
      | .violation ins => ⟨[.fetch s.pc], s.pc, 0, 0, some (.engineContractViolation ins)⟩
      | .done r =>
        ⟨fetchesFrom s.pc r.bytesConsumed ++ dataAccesses i.toInstruction s, (retire r).pc, r.bytesConsumed, r.cyclesConsumed, none⟩

end Sys2Proof.Machine
end

