-- ==== Sys2Proof/Safety.lean ====
section
/-! DEFINITION. The terms claims are stated in: the invariant of the block, launch states, and the ends of a run. -/

namespace Sys2Proof.Machine

/-- The unused nibble of F is zero (10_state.md R26, R37). -/
abbrev State.FlagsMasked (s : State) : Prop := s.f &&& 0x0F#8 = 0x00#8

/-- What the latch holds is a fault that happened here (60_exceptions.md R181, R182, R183): a latched DecodeFailure names the opcode at
PC, which has no instruction, and PC; a latched violation names a value outside the engine-defined set. -/
def State.latchCoherent (s : State) : Bool :=
  match s.fault with
  | none => true
  | some (.decodeFailure opcode address) =>
    decide (address = s.pc) && decide (s.fetchOpcode = opcode) && decide (decode opcode = .failure opcode)
  | some (.engineContractViolation ins) => !ins.wellFormed

/-- The invariant of the block: F's low nibble is zero, memory is in canonical form, the latch is coherent. -/
abbrev State.Inv (s : State) : Prop := s.FlagsMasked ∧ s.mem.wf = true ∧ s.latchCoherent = true

/-- A launch state (70_reset_and_hazards.md R202): any register file with F's low nibble zero, any PC, any memory, CYC = 0, latch clear. -/
abbrev State.Launch (s : State) : Prop := s.FlagsMasked ∧ s.mem.wf = true ∧ s.cyc = 0 ∧ s.fault = none

/-- A running block: its latch is clear, so a step is enabled (40_step.md R101). -/
abbrev State.Running (s : State) : Prop := s.fault = none

/-- The designed end of a test program (40_step.md R111): DecodeFailure raised by 0xFF at the end address, PC at the sentinel. -/
abbrev State.EndedAt (s : State) (endAddress : Word) : Prop :=
  s.pc = endAddress ∧ s.fault = some (.decodeFailure 0xFF#8 endAddress)

/-- A failed run (40_step.md R111): it ended with a fault at any other address, or of any other cause. -/
abbrev State.FailedAt (s : State) (endAddress : Word) : Prop := s.fault ≠ none ∧ ¬ s.EndedAt endAddress

end Sys2Proof.Machine
end

