-- ==== Sys2Proof/Certificates/Slice0/Obligations.lean ====
section
/-! DEFINITION. The statements for the provers, and under `Sys2Proof.Spec` the words they are written in. Those words repeat the
spec's formulas on their own and do not call the model's flag, operand or sequencer functions. -/

open Sys2Proof Sys2Proof.Machine

namespace Sys2Proof.Spec

/-- F as a byte from its four flags: zero bit 7, subtract bit 6, half-carry bit 5, carry bit 4 (10_state.md R25). -/
def flagsByte (z n h c : Bool) : Byte :=
  BitVec.ofNat 8 ((if z then 0x80 else 0) + (if n then 0x40 else 0) + (if h then 0x20 else 0) + (if c then 0x10 else 0))

/-- The low nibble `v & 0xF` as a number (00_scope.md R6). -/
def nibble (v : Byte) : Nat := (v &&& 0x0F#8).toNat

/-- `F.C` as the number 0 or 1 (10_state.md R25). -/
def carry (s : State) : Nat := if s.f.getLsbD 4 then 1 else 0

/-- `pair(HL)` as a number, high byte first (10_state.md R23). -/
def hlAddress (s : State) : Nat := s.h.toNat * 256 + s.l.toNat

/-- The byte at (HL). -/
def atHL (s : State) : Byte := s.mem.read (hlAddress s)

/-- The byte `k` places after the opcode, the address taken modulo 65536 (30_encoding.md R77). -/
def following (k : Nat) (s : State) : Byte := s.mem.read ((s.pc.toNat + k) % 65536)

/-- One row of the opcode table: the opcode decodes to the instruction `i`; `execute` on its vocabulary value `ins` returns `effect s`
(the register file and memory, the length, the cost) in every state; and `exec i` ANSWERS A NEXT STATE in every state, that of
`effect s` with PC and CYC advanced by the sequencer (stated of `retire` by Obligations.SequencerAdvancesPcAndCyc). -/
def Row (opcode : Byte) (i : Instr) (ins : Instruction) (effect : State → Executed) : Prop :=
  decode opcode = .instruction i ∧ i.toInstruction = ins ∧
    ∀ s : State, execute ins s = .done (effect s) ∧ exec i s = .next (retire (effect s))

/-- The effect of an arithmetic instruction that writes the byte `res` to A and `flags` to F. Everything else is as before. -/
def arithEffect (s : State) (res flags : Byte) (cycles : Nat) : Executed :=
  { state := { s with a := res, f := flags }, bytesConsumed := 1, cyclesConsumed := cycles }

/-- ADD A,v (41_alu.md R121). -/
def add (v : State → Byte) (cycles : Nat) (s : State) : Executed :=
  arithEffect s (s.a + v s)
    (flagsByte (s.a + v s = 0) false (nibble s.a + nibble (v s) > 0xF) (s.a.toNat + (v s).toNat > 0xFF)) cycles

/-- ADC A,v (41_alu.md R122). -/
def adc (v : State → Byte) (cycles : Nat) (s : State) : Executed :=
  arithEffect s (s.a + v s + BitVec.ofNat 8 (carry s))
    (flagsByte (s.a + v s + BitVec.ofNat 8 (carry s) = 0) false (nibble s.a + nibble (v s) + carry s > 0xF)
      (s.a.toNat + (v s).toNat + carry s > 0xFF)) cycles

/-- SUB v (41_alu.md R123). -/
def sub (v : State → Byte) (cycles : Nat) (s : State) : Executed :=
  arithEffect s (s.a - v s)
    (flagsByte (s.a - v s = 0) true (nibble s.a < nibble (v s)) (s.a.toNat < (v s).toNat)) cycles

/-- SBC A,v (41_alu.md R124), the subtrahend `v + c` not wrapped. -/
def sbc (v : State → Byte) (cycles : Nat) (s : State) : Executed :=
  arithEffect s (s.a - v s - BitVec.ofNat 8 (carry s))
    (flagsByte (s.a - v s - BitVec.ofNat 8 (carry s) = 0) true (nibble s.a < nibble (v s) + carry s)
      (s.a.toNat < (v s).toNat + carry s)) cycles

/-- AND v (41_alu.md R125). -/
def and (v : State → Byte) (cycles : Nat) (s : State) : Executed :=
  arithEffect s (s.a &&& v s) (flagsByte (s.a &&& v s = 0) false true false) cycles

/-- XOR v (41_alu.md R126). -/
def xor (v : State → Byte) (cycles : Nat) (s : State) : Executed :=
  arithEffect s (s.a ^^^ v s) (flagsByte (s.a ^^^ v s = 0) false false false) cycles

/-- OR v (41_alu.md R127). -/
def or (v : State → Byte) (cycles : Nat) (s : State) : Executed :=
  arithEffect s (s.a ||| v s) (flagsByte (s.a ||| v s = 0) false false false) cycles

/-- CP v (41_alu.md R128): A is written back unchanged. -/
def cp (v : State → Byte) (cycles : Nat) (s : State) : Executed :=
  arithEffect s s.a (flagsByte (s.a - v s = 0) true (nibble s.a < nibble (v s)) (s.a.toNat < (v s).toNat)) cycles

/-- The opcode is one of the 180 undefined ones, range by range as 30_encoding.md R79 lists them. -/
def Undefined (opcode : Byte) : Prop :=
  let n := opcode.toNat
  n = 0x00 ∨ (0x03 ≤ n ∧ n ≤ 0x05) ∨ (0x07 ≤ n ∧ n ≤ 0x10) ∨ (0x13 ≤ n ∧ n ≤ 0x15) ∨ (0x17 ≤ n ∧ n ≤ 0x20) ∨
    (0x23 ≤ n ∧ n ≤ 0x25) ∨ (0x27 ≤ n ∧ n ≤ 0x30) ∨ (0x33 ≤ n ∧ n ≤ 0x35) ∨ (0x37 ≤ n ∧ n ≤ 0x7F) ∨ 0xC0 ≤ n

/-- `bytesConsumed` by opcode (40_step.md R106): the forms' rows. -/
def lengthOf (opcode : Byte) : Nat :=
  if 0x80 ≤ opcode.toNat ∧ opcode.toNat ≤ 0xBF then 1
  else if opcode = 0x01#8 ∨ opcode = 0x11#8 ∨ opcode = 0x21#8 ∨ opcode = 0x31#8 then 3
  else if opcode = 0x02#8 ∨ opcode = 0x12#8 ∨ opcode = 0x22#8 ∨ opcode = 0x32#8 then 1
  else 2

/-- `cyclesConsumed` by opcode (40_step.md R107): the forms' rows; an arithmetic opcode reads (HL) when its bits 2..0 are 0b110. -/
def costOf (opcode : Byte) : Nat :=
  if 0x80 ≤ opcode.toNat ∧ opcode.toNat ≤ 0xBF then (if opcode.toNat % 8 = 0b110 then 2 else 1)
  else if opcode = 0x01#8 ∨ opcode = 0x11#8 ∨ opcode = 0x21#8 ∨ opcode = 0x31#8 then 3
  else 2

/-- The instruction-fetch reads of an instruction of length `n`: PC, then the bytes after it in increasing address order, modulo 65536
(20_memory.md R53, R56; 40_step.md R109). -/
def fetches (n : Nat) (s : State) : List Access :=
  (List.range n).map fun k => .fetch (BitVec.ofNat 16 ((s.pc.toNat + k) % 65536))

/-- The one data access of an opcode, if any: the columns "data reads" and "data writes" of 20_memory.md R53, at the pair's value before
the instruction, with the byte stored by 42_load.md R152 to R154 and R156. -/
def dataAccess (opcode : Byte) (s : State) : List Access :=
  if 0x80 ≤ opcode.toNat ∧ opcode.toNat ≤ 0xBF ∧ opcode.toNat % 8 = 0b110 then [.read (BitVec.ofNat 16 (hlAddress s))]
  else if opcode = 0x02#8 then [.write (BitVec.ofNat 16 (s.b.toNat * 256 + s.c.toNat)) s.a]
  else if opcode = 0x12#8 then [.write (BitVec.ofNat 16 (s.d.toNat * 256 + s.e.toNat)) s.a]
  else if opcode = 0x22#8 ∨ opcode = 0x32#8 then [.write (BitVec.ofNat 16 (hlAddress s)) s.a]
  else if opcode = 0x36#8 then [.write (BitVec.ofNat 16 (hlAddress s)) (following 1 s)]
  else []

/-- The arithmetic-family rows (41_alu.md R120). -/
def IsArithmetic (i : Instr) : Prop := 0x80 ≤ (encodeOpcode i).toNat

/-- The engine-defined set of 42_load.md R158, as it is written there. -/
def EngineDefined : Instruction → Prop
  | .arith _ _ => True
  | .load dst src =>
    (dst ∈ [LoadTarget.wide .bc, .wide .de, .wide .hl, .wide .sp] ∧ src = .imm16) ∨
    (dst ∈ [LoadTarget.memAt .bc, .memAt .de] ∧ src = .reg .a) ∨
    (dst = .memHLInc ∧ src = .reg .a) ∨
    (dst = .memHLDec ∧ src = .reg .a) ∨
    (dst ∈ [LoadTarget.reg .b, .reg .d, .reg .h] ∧ src = .imm8) ∨
    (dst = .memAt .hl ∧ src = .imm8) ∨
    (∃ r r', dst = .reg r ∧ src = .reg r')

/-- The memory after a sequence of one-byte writes, oldest first (20_memory.md R57). -/
def afterWrites (mem0 : Memory) (writes : List (Word × Byte)) : Memory :=
  writes.foldl (fun m w => m.write w.1.toNat w.2) mem0

/-- The address a transaction reads, if it is a read (fetch or data). -/
def readAddress : Access → Option Word
  | .fetch a => some a
  | .read a => some a
  | .write _ _ => none

end Sys2Proof.Spec

/-! ## Encoding -/

/-- 30_encoding.md R72 and R73: opcode `0x80 + 8 o + r` is the arithmetic instruction with operation o and target r, both in the fixed
order the tables give. -/
def Obligations.ArithmeticOpcodesDecodeByField : Prop :=
  ∀ o r : Fin 8, ∃ i : Instr,
    decode (BitVec.ofNat 8 (0x80 + 8 * o.val + r.val)) = .instruction i ∧
    i.toInstruction = .arith
      ([AluOp.add, .addCarry, .sub, .subCarry, .and, .xor, .or, .compare][o.val])
      ([ArithmeticTarget.b, .c, .d, .e, .h, .l, .indirectHL, .a][r.val])

/-- 30_encoding.md R74, R75 and R76: the twelve load opcodes, the four LD8 opcodes that are decode failures, and the agreement of
field d with the ArithmeticTarget order. A sanity statement on written-out words. -/
def Obligations.LoadOpcodesDecode : Prop :=
  (decode 0b00000001#8 = .instruction .ldBCd16 ∧ decode 0b00010001#8 = .instruction .ldDEd16 ∧
    decode 0b00100001#8 = .instruction .ldHLd16 ∧ decode 0b00110001#8 = .instruction .ldSPd16) ∧
  (decode 0b00000010#8 = .instruction .ldMemBCA ∧ decode 0b00010010#8 = .instruction .ldMemDEA ∧
    decode 0b00100010#8 = .instruction .ldMemHLIncA ∧ decode 0b00110010#8 = .instruction .ldMemHLDecA) ∧
  (decode 0b00000110#8 = .instruction .ldBd8 ∧ decode 0b00010110#8 = .instruction .ldDd8 ∧
    decode 0b00100110#8 = .instruction .ldHd8 ∧ decode 0b00110110#8 = .instruction .ldMemHLd8) ∧
  (decode 0x0E#8 = .failure 0x0E#8 ∧ decode 0x1E#8 = .failure 0x1E#8 ∧ decode 0x2E#8 = .failure 0x2E#8 ∧
    decode 0x3E#8 = .failure 0x3E#8) ∧
  (ArithmeticTarget.ofField 0b000 = .b ∧ ArithmeticTarget.ofField 0b010 = .d ∧ ArithmeticTarget.ofField 0b100 = .h ∧
    ArithmeticTarget.ofField 0b110 = .indirectHL)

/-- 30_encoding.md R78, R79 (the spec's own reading, 92_eei_decisions.md D1): an opcode decodes to an instruction exactly when it is
none of the 180 undefined ones, and an undefined opcode's failure names it. -/
def Obligations.UndefinedOpcodesFail : Prop :=
  ∀ opcode : Byte,
    (Spec.Undefined opcode → decode opcode = .failure opcode) ∧
    (¬ Spec.Undefined opcode → ∃ i, decode opcode = .instruction i)

/-- 30_encoding.md R78, R82: each opcode stands for at most one instruction and each instruction for exactly one opcode. -/
def Obligations.DecodeIffEncode : Prop :=
  ∀ (opcode : Byte) (i : Instr), decode opcode = .instruction i ↔ encodeOpcode i = opcode

/-- DECODE AND ENCODE AGREE, with every immediate (30_encoding.md R71, R77; 20_memory.md R54; the wrap at 0xFFFF is the spec's own
decision D5): when the bytes `encode i imm` are stored from PC on, the byte fetched at PC decodes to i, the bytes are as many as the
instruction consumes, and the immediate the engine reads is `imm` (its low byte for an 8-bit one). Every instruction is well formed. -/
def Obligations.EncodedInstructionIsFetchedWithItsImmediate : Prop :=
  ∀ (i : Instr) (imm : Word) (s : State),
    let t := s.writeBytes s.pc (encode i imm)
    i.wellFormed = true ∧ decode t.fetchOpcode = .instruction i ∧
    (∃ r, execute i.toInstruction t = .done r ∧ r.bytesConsumed = (encode i imm).length) ∧
    ((encode i imm).length = 2 → t.imm8 = imm.extractLsb' 0 8) ∧
    ((encode i imm).length = 3 → t.imm16 = imm)

/-! ## The step -/

/-- A STEP RUNS THE DECODED INSTRUCTION (40_step.md R101): nothing is added around `exec`, which itself advances PC and CYC. -/
def Obligations.StepRunsTheDecodedInstruction : Prop :=
  ∀ (s : State) (i : Instr), s.fault = none → decode (s.mem.read s.pc.toNat) = .instruction i → step s = exec i s

/-- 40_step.md R100: the driver's `fetchAndExecute` of a running block is a step at the program counter it passes (90_conflicts.md C4):
the instruction there runs, and an undefined opcode there is taken as DecodeFailure (60_exceptions.md R181, R183) with PC at the
failing opcode. That the latch records it is the spec's decision D11; that the taking step answers a next state is log 2. -/
def Obligations.DriverStepsAtItsProgramCounter : Prop :=
  ∀ (s : State) (programCounter : Word), s.fault = none →
    (∀ i : Instr, decode (s.mem.read programCounter.toNat) = .instruction i →
      fetchAndExecute s programCounter = exec i { s with pc := programCounter }) ∧
    (Spec.Undefined (s.mem.read programCounter.toNat) →
      fetchAndExecute s programCounter = .next { s with
        pc := programCounter
        fault := some (.decodeFailure (s.mem.read programCounter.toNat) programCounter) })

/-- 40_step.md R101, R102: the sequencer advances PC by the length modulo 65536 (10_state.md R31, D5) and CYC by the cost (R108, D8), and
changes nothing else. -/
def Obligations.SequencerAdvancesPcAndCyc : Prop :=
  ∀ r : Executed,
    (retire r).pc.toNat = (r.state.pc.toNat + r.bytesConsumed) % 65536 ∧
    (retire r).cyc = r.state.cyc + r.cyclesConsumed ∧
    { retire r with pc := r.state.pc, cyc := r.state.cyc } = r.state

/-- EVERY INSTRUCTION COMPLETES, in every state: 40_step.md R101 with the lengths of R106 and the costs of R107. There is no control
transfer (10_state.md R31, D24). -/
def Obligations.EveryInstructionAdvancesByItsLengthAndCost : Prop :=
  ∀ (i : Instr) (s : State), ∃ t, exec i s = .next t ∧
    t.pc.toNat = (s.pc.toNat + Spec.lengthOf (encodeOpcode i)) % 65536 ∧
    t.cyc = s.cyc + Spec.costOf (encodeOpcode i) ∧ t.fault = s.fault

/-- 60_exceptions.md R181, R183: a running block that fetches an undefined opcode takes DecodeFailure(opcode, PC): only the latch
changes. That the latch records it is the spec's decision D11; that the taking step answers a next state is log 2. -/
def Obligations.UndefinedOpcodeTakesDecodeFailure : Prop :=
  ∀ s : State, s.fault = none → Spec.Undefined (s.mem.read s.pc.toNat) →
    step s = .next { s with fault := some (.decodeFailure (s.mem.read s.pc.toNat) s.pc) }

/-- 60_exceptions.md R183, R185 (D11): with the latch set no step is enabled, whatever the driver asks for and however often. That
this is the host's fault outcome is log 2. -/
def Obligations.LatchedBlockTakesNoStep : Prop :=
  ∀ (s : State) (fault : Fault), s.fault = some fault →
    step s = .fault fault ∧ (∀ pc, fetchAndExecute s pc = .fault fault) ∧ ∀ n, core.run (n + 1) s = .fault fault

/-- 60_exceptions.md R182 (derived there): no step raises an engine contract violation; a step leaves the latch clear, or takes the decode
failure of an undefined opcode at its own PC (R181, R184). That the taken failure is in the latch is R183, the spec's decision D11; that
the taking step answers a next state is log 2 (DEDUCED). -/
def Obligations.StepRaisesOnlyDecodeFailures : Prop :=
  ∀ s t : State, step s = .next t →
    s.fault = none ∧
    ((t.fault = none ∧ ¬ Spec.Undefined (s.mem.read s.pc.toNat)) ∨
      (t.fault = some (.decodeFailure (s.mem.read s.pc.toNat) s.pc) ∧ Spec.Undefined (s.mem.read s.pc.toNat)))

/-- 40_step.md R111 (D17): a running block that fetches 0xFF ends there, with PC at the sentinel, and every longer run stops with that
fault. -/
def Obligations.SentinelEndsTheRun : Prop :=
  ∀ s : State, s.fault = none → s.mem.read s.pc.toNat = 0xFF#8 →
    (∃ t, step s = .next t ∧ t.EndedAt s.pc ∧ { t with fault := none } = s) ∧
    ∀ n, core.run (n + 2) s = .fault (.decodeFailure 0xFF#8 s.pc)

/-! ## The arithmetic family -/

/-- 41_alu.md R121, all eight forms: ADD A,r. The incoming C is ignored. Each opcode decodes to its instruction, which completes in every state. -/
def Obligations.AddRuleOfEveryOperand : Prop :=
  Spec.Row 0x80#8 .addAB (.arith .add .b) (Spec.add (·.b) 1) ∧
  Spec.Row 0x81#8 .addAC (.arith .add .c) (Spec.add (·.c) 1) ∧
  Spec.Row 0x82#8 .addAD (.arith .add .d) (Spec.add (·.d) 1) ∧
  Spec.Row 0x83#8 .addAE (.arith .add .e) (Spec.add (·.e) 1) ∧
  Spec.Row 0x84#8 .addAH (.arith .add .h) (Spec.add (·.h) 1) ∧
  Spec.Row 0x85#8 .addAL (.arith .add .l) (Spec.add (·.l) 1) ∧
  Spec.Row 0x86#8 .addAMemHL (.arith .add .indirectHL) (Spec.add Spec.atHL 2) ∧
  Spec.Row 0x87#8 .addAA (.arith .add .a) (Spec.add (·.a) 1)

/-- 41_alu.md R122, all eight forms: ADC A,r. Each opcode decodes to its instruction, which completes in every state. -/
def Obligations.AdcRuleOfEveryOperand : Prop :=
  Spec.Row 0x88#8 .adcAB (.arith .addCarry .b) (Spec.adc (·.b) 1) ∧
  Spec.Row 0x89#8 .adcAC (.arith .addCarry .c) (Spec.adc (·.c) 1) ∧
  Spec.Row 0x8A#8 .adcAD (.arith .addCarry .d) (Spec.adc (·.d) 1) ∧
  Spec.Row 0x8B#8 .adcAE (.arith .addCarry .e) (Spec.adc (·.e) 1) ∧
  Spec.Row 0x8C#8 .adcAH (.arith .addCarry .h) (Spec.adc (·.h) 1) ∧
  Spec.Row 0x8D#8 .adcAL (.arith .addCarry .l) (Spec.adc (·.l) 1) ∧
  Spec.Row 0x8E#8 .adcAMemHL (.arith .addCarry .indirectHL) (Spec.adc Spec.atHL 2) ∧
  Spec.Row 0x8F#8 .adcAA (.arith .addCarry .a) (Spec.adc (·.a) 1)

/-- 41_alu.md R123, all eight forms: SUB r. The incoming C is ignored. Each opcode decodes to its instruction, which completes in every state. -/
def Obligations.SubRuleOfEveryOperand : Prop :=
  Spec.Row 0x90#8 .subB (.arith .sub .b) (Spec.sub (·.b) 1) ∧
  Spec.Row 0x91#8 .subC (.arith .sub .c) (Spec.sub (·.c) 1) ∧
  Spec.Row 0x92#8 .subD (.arith .sub .d) (Spec.sub (·.d) 1) ∧
  Spec.Row 0x93#8 .subE (.arith .sub .e) (Spec.sub (·.e) 1) ∧
  Spec.Row 0x94#8 .subH (.arith .sub .h) (Spec.sub (·.h) 1) ∧
  Spec.Row 0x95#8 .subL (.arith .sub .l) (Spec.sub (·.l) 1) ∧
  Spec.Row 0x96#8 .subMemHL (.arith .sub .indirectHL) (Spec.sub Spec.atHL 2) ∧
  Spec.Row 0x97#8 .subA (.arith .sub .a) (Spec.sub (·.a) 1)

/-- 41_alu.md R124, all eight forms: SBC A,r, with the subtrahend of the spec's own decision D3. Each opcode decodes to its instruction, which completes in every state. -/
def Obligations.SbcRuleOfEveryOperand : Prop :=
  Spec.Row 0x98#8 .sbcAB (.arith .subCarry .b) (Spec.sbc (·.b) 1) ∧
  Spec.Row 0x99#8 .sbcAC (.arith .subCarry .c) (Spec.sbc (·.c) 1) ∧
  Spec.Row 0x9A#8 .sbcAD (.arith .subCarry .d) (Spec.sbc (·.d) 1) ∧
  Spec.Row 0x9B#8 .sbcAE (.arith .subCarry .e) (Spec.sbc (·.e) 1) ∧
  Spec.Row 0x9C#8 .sbcAH (.arith .subCarry .h) (Spec.sbc (·.h) 1) ∧
  Spec.Row 0x9D#8 .sbcAL (.arith .subCarry .l) (Spec.sbc (·.l) 1) ∧
  Spec.Row 0x9E#8 .sbcAMemHL (.arith .subCarry .indirectHL) (Spec.sbc Spec.atHL 2) ∧
  Spec.Row 0x9F#8 .sbcAA (.arith .subCarry .a) (Spec.sbc (·.a) 1)

/-- 41_alu.md R125, all eight forms: AND r. Each opcode decodes to its instruction, which completes in every state. -/
def Obligations.AndRuleOfEveryOperand : Prop :=
  Spec.Row 0xA0#8 .andB (.arith .and .b) (Spec.and (·.b) 1) ∧
  Spec.Row 0xA1#8 .andC (.arith .and .c) (Spec.and (·.c) 1) ∧
  Spec.Row 0xA2#8 .andD (.arith .and .d) (Spec.and (·.d) 1) ∧
  Spec.Row 0xA3#8 .andE (.arith .and .e) (Spec.and (·.e) 1) ∧
  Spec.Row 0xA4#8 .andH (.arith .and .h) (Spec.and (·.h) 1) ∧
  Spec.Row 0xA5#8 .andL (.arith .and .l) (Spec.and (·.l) 1) ∧
  Spec.Row 0xA6#8 .andMemHL (.arith .and .indirectHL) (Spec.and Spec.atHL 2) ∧
  Spec.Row 0xA7#8 .andA (.arith .and .a) (Spec.and (·.a) 1)

/-- 41_alu.md R126, all eight forms: XOR r. Each opcode decodes to its instruction, which completes in every state. -/
def Obligations.XorRuleOfEveryOperand : Prop :=
  Spec.Row 0xA8#8 .xorB (.arith .xor .b) (Spec.xor (·.b) 1) ∧
  Spec.Row 0xA9#8 .xorC (.arith .xor .c) (Spec.xor (·.c) 1) ∧
  Spec.Row 0xAA#8 .xorD (.arith .xor .d) (Spec.xor (·.d) 1) ∧
  Spec.Row 0xAB#8 .xorE (.arith .xor .e) (Spec.xor (·.e) 1) ∧
  Spec.Row 0xAC#8 .xorH (.arith .xor .h) (Spec.xor (·.h) 1) ∧
  Spec.Row 0xAD#8 .xorL (.arith .xor .l) (Spec.xor (·.l) 1) ∧
  Spec.Row 0xAE#8 .xorMemHL (.arith .xor .indirectHL) (Spec.xor Spec.atHL 2) ∧
  Spec.Row 0xAF#8 .xorA (.arith .xor .a) (Spec.xor (·.a) 1)

/-- 41_alu.md R127, all eight forms: OR r. Each opcode decodes to its instruction, which completes in every state. -/
def Obligations.OrRuleOfEveryOperand : Prop :=
  Spec.Row 0xB0#8 .orB (.arith .or .b) (Spec.or (·.b) 1) ∧
  Spec.Row 0xB1#8 .orC (.arith .or .c) (Spec.or (·.c) 1) ∧
  Spec.Row 0xB2#8 .orD (.arith .or .d) (Spec.or (·.d) 1) ∧
  Spec.Row 0xB3#8 .orE (.arith .or .e) (Spec.or (·.e) 1) ∧
  Spec.Row 0xB4#8 .orH (.arith .or .h) (Spec.or (·.h) 1) ∧
  Spec.Row 0xB5#8 .orL (.arith .or .l) (Spec.or (·.l) 1) ∧
  Spec.Row 0xB6#8 .orMemHL (.arith .or .indirectHL) (Spec.or Spec.atHL 2) ∧
  Spec.Row 0xB7#8 .orA (.arith .or .a) (Spec.or (·.a) 1)

/-- 41_alu.md R128, all eight forms: CP r. A is unchanged. Each opcode decodes to its instruction, which completes in every state. -/
def Obligations.CpRuleOfEveryOperand : Prop :=
  Spec.Row 0xB8#8 .cpB (.arith .compare .b) (Spec.cp (·.b) 1) ∧
  Spec.Row 0xB9#8 .cpC (.arith .compare .c) (Spec.cp (·.c) 1) ∧
  Spec.Row 0xBA#8 .cpD (.arith .compare .d) (Spec.cp (·.d) 1) ∧
  Spec.Row 0xBB#8 .cpE (.arith .compare .e) (Spec.cp (·.e) 1) ∧
  Spec.Row 0xBC#8 .cpH (.arith .compare .h) (Spec.cp (·.h) 1) ∧
  Spec.Row 0xBD#8 .cpL (.arith .compare .l) (Spec.cp (·.l) 1) ∧
  Spec.Row 0xBE#8 .cpMemHL (.arith .compare .indirectHL) (Spec.cp Spec.atHL 2) ∧
  Spec.Row 0xBF#8 .cpA (.arith .compare .a) (Spec.cp (·.a) 1)

/-- 41_alu.md R128: CP leaves A unchanged and sets F exactly as SUB with the same operand does; Z is 1 exactly when A equals the
operand and C exactly when A is less than it. -/
def Obligations.CompareSetsTheFlagsOfSubtract : Prop :=
  ∀ (t : ArithmeticTarget) (s : State), ∃ u v,
    exec (.ofArith .compare t) s = .next u ∧ exec (.ofArith .sub t) s = .next v ∧ u.a = s.a ∧ u.f = v.f ∧
    (u.f.getLsbD 7 = true ↔ s.a = s.operand t) ∧ (u.f.getLsbD 4 = true ↔ s.a.toNat < (s.operand t).toNat)

/-- 41_alu.md R129: H is the carry or borrow across the nibble boundary. In the bits: bit 5 of F is bit 4 of `A ^ operand ^ result`, for
all five arithmetic operations (the result of CP is `A - operand`). The form by exclusive-or is derived. -/
def Obligations.HalfCarryIsTheCarryIntoBitFour : Prop :=
  ∀ (t : ArithmeticTarget) (s : State),
    (∀ op ∈ [AluOp.add, .addCarry, .sub, .subCarry], ∃ u, exec (.ofArith op t) s = .next u ∧
      u.f.getLsbD 5 = (s.a ^^^ s.operand t ^^^ u.a).getLsbD 4) ∧
    ∃ u, exec (.ofArith .compare t) s = .next u ∧
      u.f.getLsbD 5 = (s.a ^^^ s.operand t ^^^ (s.a - s.operand t)).getLsbD 4

/-- The corner cases of 41_alu.md R123, R124, R126, R128 with r = A: SUB A, CP A and XOR A for every A and every incoming F, and SBC A,A
for every A and by the incoming C. SBC's borrows are the spec's own decision D3. -/
def Obligations.AccumulatorAsItsOwnOperand : Prop :=
  ∀ s : State,
    (∃ t, exec .subA s = .next t ∧ t.a = 0x00#8 ∧ t.f = 0xC0#8) ∧
    (∃ t, exec .cpA s = .next t ∧ t.a = s.a ∧ t.f = 0xC0#8) ∧
    (∃ t, exec .xorA s = .next t ∧ t.a = 0x00#8 ∧ t.f = 0x80#8) ∧
    (∃ t, exec .sbcAA s = .next t ∧
      (s.f.getLsbD 4 = false → t.a = 0x00#8 ∧ t.f = 0xC0#8) ∧ (s.f.getLsbD 4 = true → t.a = 0xFF#8 ∧ t.f = 0x70#8))

/-- FRAME of the arithmetic family (41_alu.md R120), all 64 instructions: no register but A and F is written, by CP none but F; not SP,
not the latch, no byte of memory; F's low nibble is 0. -/
def Obligations.ArithmeticFrame : Prop :=
  ∀ (op : AluOp) (t : ArithmeticTarget) (s u : State), exec (.ofArith op t) s = .next u →
    u.b = s.b ∧ u.c = s.c ∧ u.d = s.d ∧ u.e = s.e ∧ u.h = s.h ∧ u.l = s.l ∧ u.sp = s.sp ∧ u.fault = s.fault ∧
    (op = .compare → u.a = s.a) ∧ u.f &&& 0x0F#8 = 0x00#8 ∧ ∀ x : Nat, u.mem.read x = s.mem.read x

/-! ## The load family -/

/-- 42_load.md R151: LD BC, DE, HL and SP,d16 in every state, the immediate low byte first from the two bytes after the opcode (their
addresses modulo 65536: D5). -/
def Obligations.LoadWideRule : Prop :=
  Spec.Row 0x01#8 .ldBCd16 (.load (.wide .bc) .imm16)
    (fun s => ⟨{ s with b := Spec.following 2 s, c := Spec.following 1 s }, 3, 3⟩) ∧
  Spec.Row 0x11#8 .ldDEd16 (.load (.wide .de) .imm16)
    (fun s => ⟨{ s with d := Spec.following 2 s, e := Spec.following 1 s }, 3, 3⟩) ∧
  Spec.Row 0x21#8 .ldHLd16 (.load (.wide .hl) .imm16)
    (fun s => ⟨{ s with h := Spec.following 2 s, l := Spec.following 1 s }, 3, 3⟩) ∧
  Spec.Row 0x31#8 .ldSPd16 (.load (.wide .sp) .imm16)
    (fun s => ⟨{ s with sp := BitVec.ofNat 16 ((Spec.following 2 s).toNat * 256 + (Spec.following 1 s).toNat) }, 3, 3⟩)

/-- 42_load.md R152 (derived there): LD (BC),A and LD (DE),A in every state. What `Memory.write` leaves is stated by
Obligations.ReadReturnsTheLastByteWritten. -/
def Obligations.StoreAccumulatorThroughPairRule : Prop :=
  Spec.Row 0x02#8 .ldMemBCA (.load (.memAt .bc) (.reg .a))
    (fun s => ⟨{ s with mem := s.mem.write (s.b.toNat * 256 + s.c.toNat) s.a }, 1, 2⟩) ∧
  Spec.Row 0x12#8 .ldMemDEA (.load (.memAt .de) (.reg .a))
    (fun s => ⟨{ s with mem := s.mem.write (s.d.toNat * 256 + s.e.toNat) s.a }, 1, 2⟩)

/-- 42_load.md R153 and R154: LD (HL+),A and LD (HL-),A in every state: the byte goes to the address HL had, then HL changes modulo
65536 (D5), high byte to H and low byte to L. -/
def Obligations.StoreAccumulatorAndMoveHLRule : Prop :=
  Spec.Row 0x22#8 .ldMemHLIncA (.load .memHLInc (.reg .a))
    (fun s => ⟨{ s with mem := s.mem.write (Spec.hlAddress s) s.a
                        h := BitVec.ofNat 8 ((Spec.hlAddress s + 1) % 65536 / 256)
                        l := BitVec.ofNat 8 ((Spec.hlAddress s + 1) % 65536 % 256) }, 1, 2⟩) ∧
  Spec.Row 0x32#8 .ldMemHLDecA (.load .memHLDec (.reg .a))
    (fun s => ⟨{ s with mem := s.mem.write (Spec.hlAddress s) s.a
                        h := BitVec.ofNat 8 ((Spec.hlAddress s + 65535) % 65536 / 256)
                        l := BitVec.ofNat 8 ((Spec.hlAddress s + 65535) % 65536 % 256) }, 1, 2⟩)

/-- 42_load.md R155: LD B, D and H,d8 in every state, the immediate from the byte after the opcode (its address modulo 65536: D5). -/
def Obligations.LoadImmediateByteRule : Prop :=
  Spec.Row 0x06#8 .ldBd8 (.load (.reg .b) .imm8) (fun s => ⟨{ s with b := Spec.following 1 s }, 2, 2⟩) ∧
  Spec.Row 0x16#8 .ldDd8 (.load (.reg .d) .imm8) (fun s => ⟨{ s with d := Spec.following 1 s }, 2, 2⟩) ∧
  Spec.Row 0x26#8 .ldHd8 (.load (.reg .h) .imm8) (fun s => ⟨{ s with h := Spec.following 1 s }, 2, 2⟩)

/-- 42_load.md R156 (derived there; the cost 2 is D9): LD (HL),d8 in every state. -/
def Obligations.StoreImmediateByteRule : Prop :=
  Spec.Row 0x36#8 .ldMemHLd8 (.load (.memAt .hl) .imm8)
    (fun s => ⟨{ s with mem := s.mem.write (Spec.hlAddress s) (Spec.following 1 s) }, 2, 2⟩)

/-- FRAME of the seven register loads (42_load.md R150, R151, R155; no load writes a flag: D4): only the destination register changes,
and no byte of memory. -/
def Obligations.RegisterLoadFrame : Prop :=
  ∀ (i : Instr) (s t : State), i ∈ [Instr.ldBCd16, .ldDEd16, .ldHLd16, .ldSPd16, .ldBd8, .ldDd8, .ldHd8] →
    exec i s = .next t →
    t.a = s.a ∧ t.f = s.f ∧ t.fault = s.fault ∧ (∀ x : Nat, t.mem.read x = s.mem.read x) ∧
    (i ≠ .ldBCd16 → i ≠ .ldBd8 → t.b = s.b) ∧ (i ≠ .ldBCd16 → t.c = s.c) ∧
    (i ≠ .ldDEd16 → i ≠ .ldDd8 → t.d = s.d) ∧ (i ≠ .ldDEd16 → t.e = s.e) ∧
    (i ≠ .ldHLd16 → i ≠ .ldHd8 → t.h = s.h) ∧ (i ≠ .ldHLd16 → t.l = s.l) ∧ (i ≠ .ldSPd16 → t.sp = s.sp)

/-- FRAME of the five stores (42_load.md R150, R152, R153, R154, R156; no load writes a flag: D4): the one byte stored is at the pair's
value before the instruction, every other address reads as before, and no register changes but HL of LD (HL+),A and LD (HL-),A. -/
def Obligations.StoreFrame : Prop :=
  ∀ (i : Instr) (p : Pair) (v : Byte) (s t : State),
    (i, p, v) ∈ [(Instr.ldMemBCA, Pair.bc, s.a), (.ldMemDEA, .de, s.a), (.ldMemHLIncA, .hl, s.a), (.ldMemHLDecA, .hl, s.a),
      (.ldMemHLd8, .hl, s.imm8)] →
    exec i s = .next t →
    t.a = s.a ∧ t.b = s.b ∧ t.c = s.c ∧ t.d = s.d ∧ t.e = s.e ∧ t.f = s.f ∧ t.sp = s.sp ∧ t.fault = s.fault ∧
    (i ≠ .ldMemHLIncA → i ≠ .ldMemHLDecA → t.h = s.h ∧ t.l = s.l) ∧
    t.mem.read (s.readPair p).toNat = v ∧ ∀ x : Nat, x ≠ (s.readPair p).toNat → t.mem.read x = s.mem.read x

/-! ## Whole-machine rules -/

/-- The register writers of 10_state.md R22 (derived there), over every instruction: a register that changes is changed by an
instruction its row names. -/
def Obligations.RegistersChangeOnlyByTheirWriters : Prop :=
  ∀ (i : Instr) (s t : State), exec i s = .next t →
    (t.a ≠ s.a → Spec.IsArithmetic i ∧ (encodeOpcode i).toNat < 0xB8) ∧
    (t.b ≠ s.b → i ∈ [Instr.ldBCd16, .ldBd8]) ∧ (t.c ≠ s.c → i = .ldBCd16) ∧
    (t.d ≠ s.d → i ∈ [Instr.ldDEd16, .ldDd8]) ∧ (t.e ≠ s.e → i = .ldDEd16) ∧
    (t.h ≠ s.h → i ∈ [Instr.ldHLd16, .ldHd8, .ldMemHLIncA, .ldMemHLDecA]) ∧
    (t.l ≠ s.l → i ∈ [Instr.ldHLd16, .ldMemHLIncA, .ldMemHLDecA]) ∧
    (t.f ≠ s.f → Spec.IsArithmetic i) ∧ (t.sp ≠ s.sp → i = .ldSPd16) ∧
    (t.mem ≠ s.mem → i ∈ [Instr.ldMemBCA, .ldMemDEA, .ldMemHLIncA, .ldMemHLDecA, .ldMemHLd8])

/-- 10_state.md R29 (derived there): only ADC and SBC read a flag. Any other instruction, run with any other value `f'` of F, leaves
the same state, F apart; an arithmetic one leaves the same F too (all four flags are overwritten: R28), a load leaves F as it was. -/
def Obligations.OnlyAdcAndSbcReadFlags : Prop :=
  ∀ (i : Instr) (s : State) (f' : Byte),
    (∀ t, i ≠ .ofArith .addCarry t ∧ i ≠ .ofArith .subCarry t) →
    ∃ t t', exec i s = .next t ∧ exec i { s with f := f' } = .next t' ∧ { t' with f := t.f } = t ∧
      (Spec.IsArithmetic i → t'.f = t.f) ∧ (¬ Spec.IsArithmetic i → t.f = s.f ∧ t'.f = f')

/-- 10_state.md R30 and 40_step.md R108: no instruction reads SP or CYC. Two runs of one instruction that differ only there leave states
that differ only there. -/
def Obligations.NoInstructionReadsSpOrCyc : Prop :=
  ∀ (i : Instr) (s : State) (sp' : Word) (cyc' : Nat),
    ∃ t t', exec i s = .next t ∧ exec i { s with sp := sp', cyc := cyc' } = .next t' ∧
      { t' with sp := t.sp, cyc := t.cyc } = t

/-- 20_memory.md R53: a step's result depends on no byte of memory but those its port transactions read. With any other memory `m` that
agrees on them, a running block reports the same and leaves the same registers, PC, CYC and latch. -/
def Obligations.StepReadsOnlyTheBytesItAccesses : Prop :=
  ∀ (s : State) (m : Memory), s.fault = none →
    (∀ access ∈ (report s).accesses, ∀ a, Spec.readAddress access = some a → m.read a.toNat = s.mem.read a.toNat) →
    report { s with mem := m } = report s ∧
    ∃ t t', step s = .next t ∧ step { s with mem := m } = .next t' ∧ { t' with mem := t.mem } = t

/-- 20_memory.md R53, R57: a step changes exactly the bytes its port transactions write: each written byte reads back, and every address
no transaction writes reads as before. A step writes at most one byte (R60). -/
def Obligations.StepWritesExactlyTheBytesItAccesses : Prop :=
  ∀ s t : State, step s = .next t →
    (∀ a v, Access.write a v ∈ (report s).accesses → t.mem.read a.toNat = v) ∧
    (∀ x : Nat, (∀ a v, Access.write a v ∈ (report s).accesses → a.toNat ≠ x) → t.mem.read x = s.mem.read x) ∧
    ((report s).accesses.filter (fun access => (Spec.readAddress access).isNone)).length ≤ 1

/-- 40_step.md R100: what a step shows on the ports is what it does: the memory transactions, exactly those of 20_memory.md R53 in the
order of 40_step.md R109 (the spec's decision D7; one opcode read only for an undefined opcode: 60_exceptions.md R181), the new PC, the
length, the cost, and the fault report. That a failing step shows length 0 and cost 0 is log 7, that it answers a next state log 2. -/
def Obligations.ReportAgreesWithTheStep : Prop :=
  ∀ s t : State, step s = .next t →
    (Spec.Undefined (s.mem.read s.pc.toNat) → (report s).accesses = [.fetch s.pc]) ∧
    (¬ Spec.Undefined (s.mem.read s.pc.toNat) →
      (report s).accesses = Spec.fetches (Spec.lengthOf (s.mem.read s.pc.toNat)) s ++ Spec.dataAccess (s.mem.read s.pc.toNat) s) ∧
    (report s).newPc = t.pc ∧ t.pc.toNat = (s.pc.toNat + (report s).bytesConsumed) % 65536 ∧
    t.cyc = s.cyc + (report s).cyclesConsumed ∧ (report s).fault = t.fault

/-- 20_memory.md R61 (derived there): a byte stored to the next instruction's address is the next opcode fetched, with nothing between,
under each of the five stores: LD (BC),A, LD (DE),A, LD (HL+),A, LD (HL-),A with their pair at PC + 1 store A, and LD (HL),d8 with HL
at PC + 2 stores its immediate. The next step runs the instruction the byte decodes to. Where it has none, the step takes DecodeFailure
(60_exceptions.md R181, R183): that the latch records it is the spec's decision D11, that it answers a next state is log 2 (DEDUCED). -/
def Obligations.StoreIsSeenByTheNextFetch : Prop :=
  ∀ (s t : State) (v : Byte), s.fault = none →
    (v = s.a ∧
        (s.mem.read s.pc.toNat = 0x02#8 ∧ s.readPair .bc = s.pc + 1 ∨ s.mem.read s.pc.toNat = 0x12#8 ∧ s.readPair .de = s.pc + 1 ∨
          (s.mem.read s.pc.toNat = 0x22#8 ∨ s.mem.read s.pc.toNat = 0x32#8) ∧ s.readPair .hl = s.pc + 1) ∨
      v = Spec.following 1 s ∧ s.mem.read s.pc.toNat = 0x36#8 ∧ s.readPair .hl = s.pc + 2) →
    step s = .next t →
    t.fetchOpcode = v ∧ step t = (match decode v with
      | .instruction i => exec i t
      | .failure opcode => .next { t with fault := some (.decodeFailure opcode t.pc) })

/-- 20_memory.md R61 (derived there): LD (HL),d8 with HL at its own immediate byte writes the same value back, so in canonical form
memory is the same data. -/
def Obligations.StoreOverItsOwnImmediateChangesNothing : Prop :=
  ∀ s : State, s.mem.wf = true → s.readPair .hl = s.pc + 1 →
    ∃ t, exec .ldMemHLd8 s = .next t ∧ t = { s with pc := s.pc + 2, cyc := s.cyc + 2 }

/-! ## The execute interface -/

/-- 42_load.md R158, 60_exceptions.md R182: `execute` gives a meaning to exactly the engine-defined set (the spec's decision D18). Any
other value is a violation that names it and, taken, changes only the latch (R183). That this holds with the latch already set, so that
a value still completes and a violation replaces the latched fault, is the model's choice (log 9). -/
def Obligations.EngineAcceptsExactlyTheDefinedSet : Prop :=
  ∀ (ins : Instruction) (s : State),
    (Spec.EngineDefined ins → ∃ r, execute ins s = .done r ∧ applyInstruction ins s = .next (retire r)) ∧
    (¬ Spec.EngineDefined ins → execute ins s = .violation ins ∧
      applyInstruction ins s = .next { s with fault := some (.engineContractViolation ins) })

/-- The opcode table's meanings are the engine's: running an instruction is `execute` on its vocabulary value (30_encoding.md R85), though
the loads' forms (42_load.md) and the engine's addressing modes (40_step.md R104) are written apart. That both do not look at the latch
is the model's choice (log 5, log 9). -/
def Obligations.DispatchAgreesWithTheEngine : Prop :=
  ∀ (i : Instr) (s : State), exec i s = applyInstruction i.toInstruction s

/-- 42_load.md R157 (vocabulary only: D2): LD r,r' copies a register, length 1, cost 1; it changes no other register, no flag, no memory. -/
def Obligations.RegisterCopyRule : Prop :=
  ∀ (r r' : Reg8) (s : State), ∃ t, execute (.load (.reg r) (.reg r')) s = .done ⟨t, 1, 1⟩ ∧
    t.readReg r = s.readReg r' ∧ (∀ q, q ≠ r → t.readReg q = s.readReg q) ∧
    t.f = s.f ∧ t.sp = s.sp ∧ t.pc = s.pc ∧ t.mem = s.mem ∧ t.cyc = s.cyc ∧ t.fault = s.fault

/-! ## The register file -/

/-- 10_state.md R23: the pairs are views, high byte first: reading composes, writing decomposes, the round trip gives the word back, and
nothing else changes. -/
def Obligations.PairsAreViews : Prop :=
  ∀ (s : State) (w : Word),
    ((s.readPair .bc).toNat = s.b.toNat * 256 + s.c.toNat ∧ (s.readPair .de).toNat = s.d.toNat * 256 + s.e.toNat ∧
      (s.readPair .hl).toNat = s.h.toNat * 256 + s.l.toNat) ∧
    s.writePair .bc w = { s with b := BitVec.ofNat 8 (w.toNat / 256), c := BitVec.ofNat 8 (w.toNat % 256) } ∧
    s.writePair .de w = { s with d := BitVec.ofNat 8 (w.toNat / 256), e := BitVec.ofNat 8 (w.toNat % 256) } ∧
    s.writePair .hl w = { s with h := BitVec.ofNat 8 (w.toNat / 256), l := BitVec.ofNat 8 (w.toNat % 256) } ∧
    ∀ p, p ≠ .af → (s.writePair p w).readPair p = w

/-- 10_state.md R24: AF's low byte is F with its low nibble forced to zero, so the round trip gives `w & 0xFFF0` (90_conflicts.md C2). -/
def Obligations.AccumulatorFlagsPairMasksItsLowNibble : Prop :=
  ∀ (s : State) (w : Word),
    (s.readPair .af).toNat = s.a.toNat * 256 + s.f.toNat ∧
    s.writePair .af w = { s with a := BitVec.ofNat 8 (w.toNat / 256), f := BitVec.ofNat 8 (w.toNat % 256) &&& 0xF0#8 } ∧
    (s.writePair .af w).readPair .af = w &&& 0xFFF0#16

/-- 10_state.md R25, R27: the flags' bit positions; `setFlags` sets all four and reads back; `writeFlag` sets one and keeps the other
three; either leaves the low nibble zero and everything but F as it was (R26). -/
def Obligations.FlagAccessors : Prop :=
  ∀ (s : State),
    (s.readFlag .z = s.f.getLsbD 7 ∧ s.readFlag .n = s.f.getLsbD 6 ∧ s.readFlag .h = s.f.getLsbD 5 ∧ s.readFlag .c = s.f.getLsbD 4) ∧
    (∀ z n h c : Bool, s.setFlags z n h c = { s with f := Spec.flagsByte z n h c }) ∧
    (∀ k b, (s.writeFlag k b).readFlag k = b ∧ (∀ k', k' ≠ k → (s.writeFlag k b).readFlag k' = s.readFlag k') ∧
      (s.writeFlag k b).FlagsMasked ∧ { s.writeFlag k b with f := s.f } = s)

/-- 10_state.md R26: recomposing the four flags of any byte gives the byte with its low nibble zero. -/
def Obligations.FlagPackingRoundTrip : Prop :=
  ∀ (s : State) (b : Byte),
    (s.writeF b).f = b &&& 0xF0#8 ∧
    (s.setFlags (b.getLsbD 7) (b.getLsbD 6) (b.getLsbD 5) (b.getLsbD 4)).f = b &&& 0xF0#8

/-- 10_state.md R21: the seven general registers are independent cells that hold any byte written to them. -/
def Obligations.GeneralRegistersAreIndependentCells : Prop :=
  ∀ (s : State) (r : Reg8) (v : Byte),
    (s.writeReg r v).readReg r = v ∧ (∀ q, q ≠ r → (s.writeReg r v).readReg q = s.readReg q) ∧
    (s.writeReg r v).f = s.f ∧ (s.writeReg r v).sp = s.sp ∧ (s.writeReg r v).pc = s.pc ∧ (s.writeReg r v).mem = s.mem

/-! ## Memory -/

/-- 20_memory.md R57 (D6): after any sequence of writes, oldest first, a read returns the last byte written to its address, or the byte of
the memory they began with if none was. -/
def Obligations.ReadReturnsTheLastByteWritten : Prop :=
  ∀ (mem0 : Memory) (writes : List (Word × Byte)) (x : Word),
    (Spec.afterWrites mem0 writes).read x.toNat = (match writes.reverse.find? (fun w => w.1 = x) with
      | some w => w.2
      | none => mem0.read x.toNat)

/-- Memory's canonical form (the model's own, log 1): any writes keep it, and two sequences of writes after which every address reads
alike leave the same data. -/
def Obligations.EqualMemoriesAreEqualData : Prop :=
  ∀ (mem0 mem1 : Memory) (writes writes' : List (Word × Byte)), mem0.wf = true → mem1.wf = true →
    (Spec.afterWrites mem0 writes).wf = true ∧
    ((∀ x : Word, (Spec.afterWrites mem0 writes).read x.toNat = (Spec.afterWrites mem1 writes').read x.toNat) →
      Spec.afterWrites mem0 writes = Spec.afterWrites mem1 writes')

/-! ## Reset and the invariant -/

/-- 10_state.md R34, 70_reset_and_hazards.md R200, R201: after reset every register, F, SP and PC are zero; CYC is 0 and the latch clear (the
spec's decisions D8, D11); memory is the parameter mem0 (D6). The memory of `State.reset` is the model's choice, log 1. -/
def Obligations.ResetState : Prop :=
  (∀ mem0 : Memory, (∀ r, (State.resetWith mem0).readReg r = 0x00#8) ∧ (State.resetWith mem0).f = 0x00#8 ∧
    (State.resetWith mem0).sp = 0x0000#16 ∧ (State.resetWith mem0).pc = 0x0000#16 ∧ (State.resetWith mem0).cyc = 0 ∧
    (State.resetWith mem0).fault = none ∧ (State.resetWith mem0).mem = mem0) ∧
  State.reset = State.resetWith [] ∧ core.reset = State.reset

/-- The invariant holds after reset with any canonical launch memory, and in every launch state (70_reset_and_hazards.md R202, D21). -/
def Obligations.ResetAndLaunchStatesMeetTheInvariant : Prop :=
  State.reset.Inv ∧ (∀ mem0 : Memory, mem0.wf = true → (State.resetWith mem0).Inv ∧ (State.resetWith mem0).Launch) ∧
  ∀ s : State, s.Launch → s.Inv

/-- EVERY STEP KEEPS THE INVARIANT, from every state that meets it: F's low nibble is zero (10_state.md R26), memory keeps its canonical
form (log 1), and a latched fault is one that happened at PC (60_exceptions.md R181, R183). -/
def Obligations.StepKeepsTheInvariant : Prop :=
  ∀ s t : State, s.Inv → step s = .next t → t.Inv

/-- The same for the execute interface (40_step.md R102): a constructed instruction value of the whole vocabulary, applied to a running
block, keeps the invariant. -/
def Obligations.ApplyingAnyInstructionKeepsTheInvariant : Prop :=
  ∀ (ins : Instruction) (s t : State), s.Inv → s.fault = none → applyInstruction ins s = .next t → t.Inv

/-- Every run of whole steps (40_step.md R110) from a state that meets the invariant keeps it; CYC never falls and grows by at most 3 a
step (R107, R108); a run of at least one step that is still going started from a clear latch. -/
def Obligations.RunsKeepTheInvariantAndCountCycles : Prop :=
  ∀ (n : Nat) (s t : State), s.Inv → core.run n s = .next t →
    t.Inv ∧ s.cyc ≤ t.cyc ∧ t.cyc ≤ s.cyc + 3 * n ∧ (0 < n → s.fault = none)
end

