-- ==== Sys2Proof/Laws/PerInstr.lean ====
section
/-! SUPPORT. Facts about each instruction as syntax, one lemma per constructor. -/

namespace Sys2Proof.Laws.Encoding

/-- The instruction is well formed, its opcode decodes to it, and its immediate bytes are two exactly for a 16-bit immediate and one
exactly for an 8-bit one (30_encoding.md R71, R78, R85). -/
def Statement (i : Instr) : Prop :=
  i.wellFormed = true ∧ decode (encodeOpcode i) = .instruction i ∧
    ∀ imm : Word, (immediateBytes imm i).length =
      (match i.toInstruction with
        | .load _ .imm16 => 2
        | .load _ .imm8 => 1
        | _ => 0)

theorem addAB : Statement .addAB := ⟨rfl, rfl, fun _ => rfl⟩
theorem addAC : Statement .addAC := ⟨rfl, rfl, fun _ => rfl⟩
theorem addAD : Statement .addAD := ⟨rfl, rfl, fun _ => rfl⟩
theorem addAE : Statement .addAE := ⟨rfl, rfl, fun _ => rfl⟩
theorem addAH : Statement .addAH := ⟨rfl, rfl, fun _ => rfl⟩
theorem addAL : Statement .addAL := ⟨rfl, rfl, fun _ => rfl⟩
theorem addAMemHL : Statement .addAMemHL := ⟨rfl, rfl, fun _ => rfl⟩
theorem addAA : Statement .addAA := ⟨rfl, rfl, fun _ => rfl⟩
theorem adcAB : Statement .adcAB := ⟨rfl, rfl, fun _ => rfl⟩
theorem adcAC : Statement .adcAC := ⟨rfl, rfl, fun _ => rfl⟩
theorem adcAD : Statement .adcAD := ⟨rfl, rfl, fun _ => rfl⟩
theorem adcAE : Statement .adcAE := ⟨rfl, rfl, fun _ => rfl⟩
theorem adcAH : Statement .adcAH := ⟨rfl, rfl, fun _ => rfl⟩
theorem adcAL : Statement .adcAL := ⟨rfl, rfl, fun _ => rfl⟩
theorem adcAMemHL : Statement .adcAMemHL := ⟨rfl, rfl, fun _ => rfl⟩
theorem adcAA : Statement .adcAA := ⟨rfl, rfl, fun _ => rfl⟩
theorem subB : Statement .subB := ⟨rfl, rfl, fun _ => rfl⟩
theorem subC : Statement .subC := ⟨rfl, rfl, fun _ => rfl⟩
theorem subD : Statement .subD := ⟨rfl, rfl, fun _ => rfl⟩
theorem subE : Statement .subE := ⟨rfl, rfl, fun _ => rfl⟩
theorem subH : Statement .subH := ⟨rfl, rfl, fun _ => rfl⟩
theorem subL : Statement .subL := ⟨rfl, rfl, fun _ => rfl⟩
theorem subMemHL : Statement .subMemHL := ⟨rfl, rfl, fun _ => rfl⟩
theorem subA : Statement .subA := ⟨rfl, rfl, fun _ => rfl⟩
theorem sbcAB : Statement .sbcAB := ⟨rfl, rfl, fun _ => rfl⟩
theorem sbcAC : Statement .sbcAC := ⟨rfl, rfl, fun _ => rfl⟩
theorem sbcAD : Statement .sbcAD := ⟨rfl, rfl, fun _ => rfl⟩
theorem sbcAE : Statement .sbcAE := ⟨rfl, rfl, fun _ => rfl⟩
theorem sbcAH : Statement .sbcAH := ⟨rfl, rfl, fun _ => rfl⟩
theorem sbcAL : Statement .sbcAL := ⟨rfl, rfl, fun _ => rfl⟩
theorem sbcAMemHL : Statement .sbcAMemHL := ⟨rfl, rfl, fun _ => rfl⟩
theorem sbcAA : Statement .sbcAA := ⟨rfl, rfl, fun _ => rfl⟩
theorem andB : Statement .andB := ⟨rfl, rfl, fun _ => rfl⟩
theorem andC : Statement .andC := ⟨rfl, rfl, fun _ => rfl⟩
theorem andD : Statement .andD := ⟨rfl, rfl, fun _ => rfl⟩
theorem andE : Statement .andE := ⟨rfl, rfl, fun _ => rfl⟩
theorem andH : Statement .andH := ⟨rfl, rfl, fun _ => rfl⟩
theorem andL : Statement .andL := ⟨rfl, rfl, fun _ => rfl⟩
theorem andMemHL : Statement .andMemHL := ⟨rfl, rfl, fun _ => rfl⟩
theorem andA : Statement .andA := ⟨rfl, rfl, fun _ => rfl⟩
theorem xorB : Statement .xorB := ⟨rfl, rfl, fun _ => rfl⟩
theorem xorC : Statement .xorC := ⟨rfl, rfl, fun _ => rfl⟩
theorem xorD : Statement .xorD := ⟨rfl, rfl, fun _ => rfl⟩
theorem xorE : Statement .xorE := ⟨rfl, rfl, fun _ => rfl⟩
theorem xorH : Statement .xorH := ⟨rfl, rfl, fun _ => rfl⟩
theorem xorL : Statement .xorL := ⟨rfl, rfl, fun _ => rfl⟩
theorem xorMemHL : Statement .xorMemHL := ⟨rfl, rfl, fun _ => rfl⟩
theorem xorA : Statement .xorA := ⟨rfl, rfl, fun _ => rfl⟩
theorem orB : Statement .orB := ⟨rfl, rfl, fun _ => rfl⟩
theorem orC : Statement .orC := ⟨rfl, rfl, fun _ => rfl⟩
theorem orD : Statement .orD := ⟨rfl, rfl, fun _ => rfl⟩
theorem orE : Statement .orE := ⟨rfl, rfl, fun _ => rfl⟩
theorem orH : Statement .orH := ⟨rfl, rfl, fun _ => rfl⟩
theorem orL : Statement .orL := ⟨rfl, rfl, fun _ => rfl⟩
theorem orMemHL : Statement .orMemHL := ⟨rfl, rfl, fun _ => rfl⟩
theorem orA : Statement .orA := ⟨rfl, rfl, fun _ => rfl⟩
theorem cpB : Statement .cpB := ⟨rfl, rfl, fun _ => rfl⟩
theorem cpC : Statement .cpC := ⟨rfl, rfl, fun _ => rfl⟩
theorem cpD : Statement .cpD := ⟨rfl, rfl, fun _ => rfl⟩
theorem cpE : Statement .cpE := ⟨rfl, rfl, fun _ => rfl⟩
theorem cpH : Statement .cpH := ⟨rfl, rfl, fun _ => rfl⟩
theorem cpL : Statement .cpL := ⟨rfl, rfl, fun _ => rfl⟩
theorem cpMemHL : Statement .cpMemHL := ⟨rfl, rfl, fun _ => rfl⟩
theorem cpA : Statement .cpA := ⟨rfl, rfl, fun _ => rfl⟩
theorem ldBCd16 : Statement .ldBCd16 := ⟨rfl, rfl, fun _ => rfl⟩
theorem ldDEd16 : Statement .ldDEd16 := ⟨rfl, rfl, fun _ => rfl⟩
theorem ldHLd16 : Statement .ldHLd16 := ⟨rfl, rfl, fun _ => rfl⟩
theorem ldSPd16 : Statement .ldSPd16 := ⟨rfl, rfl, fun _ => rfl⟩
theorem ldMemBCA : Statement .ldMemBCA := ⟨rfl, rfl, fun _ => rfl⟩
theorem ldMemDEA : Statement .ldMemDEA := ⟨rfl, rfl, fun _ => rfl⟩
theorem ldMemHLIncA : Statement .ldMemHLIncA := ⟨rfl, rfl, fun _ => rfl⟩
theorem ldMemHLDecA : Statement .ldMemHLDecA := ⟨rfl, rfl, fun _ => rfl⟩
theorem ldBd8 : Statement .ldBd8 := ⟨rfl, rfl, fun _ => rfl⟩
theorem ldDd8 : Statement .ldDd8 := ⟨rfl, rfl, fun _ => rfl⟩
theorem ldHd8 : Statement .ldHd8 := ⟨rfl, rfl, fun _ => rfl⟩
theorem ldMemHLd8 : Statement .ldMemHLd8 := ⟨rfl, rfl, fun _ => rfl⟩

end Sys2Proof.Laws.Encoding
end

