-- ==== Sys2Proof/Laws/Decode.lean ====
section
/-! SUPPORT. The decoder and the encoder. -/

namespace Sys2Proof

/-- Every opcode decodes to the instruction whose opcode it is, or to the failure that names it (30_encoding.md R78, R79). -/
theorem decode_cases (opcode : Byte) :
    (∃ i, decode opcode = .instruction i ∧ encodeOpcode i = opcode) ∨ decode opcode = .failure opcode := by
  revert opcode
  suffices h : ∀ opcode : Byte, (match decode opcode with
      | .instruction i => decide (encodeOpcode i = opcode)
      | .failure b => decide (b = opcode)) = true by
    intro opcode
    have := h opcode
    cases hd : decode opcode with
    | instruction i => exact .inl ⟨i, rfl, by simpa [hd] using this⟩
    | failure b => exact .inr (by simpa [hd] using this)
  decide

theorem decode_failure_names {opcode b : Byte} (h : decode opcode = .failure b) : b = opcode := by
  rcases decode_cases opcode with ⟨i, hi, -⟩ | hf
  · simp [hi] at h
  · simp [hf] at h
    exact h.symm

theorem encodeOpcode_of_decode {opcode : Byte} {i : Instr} (h : decode opcode = .instruction i) : encodeOpcode i = opcode := by
  rcases decode_cases opcode with ⟨j, hj, he⟩ | hf
  · simp [hj] at h
    exact h ▸ he
  · simp [hf] at h

end Sys2Proof
end

