-- ==== Sys2Proof/Laws/Flags.lean ====
section
/-! SUPPORT. The packed flags register, and what the results of the arithmetic family are in bit-vector arithmetic. -/

namespace Sys2Proof.Machine

/-- Packed flags have a zero low nibble, so masking keeps them (10_state.md R26). -/
@[simp] theorem packFlags_masked (z n h c : Bool) : packFlags z n h c &&& 0xF0#8 = packFlags z n h c := by
  revert z n h c; decide

@[simp] theorem setFlags_f (s : State) (z n h c : Bool) : (s.setFlags z n h c).f = packFlags z n h c :=
  packFlags_masked z n h c

theorem packFlags_bits (z n h c : Bool) :
    (packFlags z n h c).getLsbD 7 = z ∧ (packFlags z n h c).getLsbD 6 = n ∧
    (packFlags z n h c).getLsbD 5 = h ∧ (packFlags z n h c).getLsbD 4 = c := by
  revert z n h c; decide

/-- Masking to the high nibble leaves the low nibble zero. -/
theorem masked_low_zero (v : Byte) : (v &&& 0xF0#8) &&& 0x0F#8 = 0x00#8 := by
  revert v; decide

theorem packFlags_low_zero (z n h c : Bool) : packFlags z n h c &&& 0x0F#8 = 0x00#8 := by
  revert z n h c; decide

/-- The low nibble of a byte is `v & 0xF` (00_scope.md R6). -/
theorem lowNibble_eq (v : Byte) : lowNibble v = (v &&& 0x0F#8).toNat := by
  rw [BitVec.toNat_and]
  exact (Nat.and_two_pow_sub_one_eq_mod v.toNat 4).symm

/-- The sum is the bit-vector sum (41_alu.md R130). -/
theorem addWithCarry_result (a v : Byte) (c : Nat) : (addWithCarry a v c).result = a + v + BitVec.ofNat 8 c := by
  apply BitVec.eq_of_toNat_eq
  simp [addWithCarry]

/-- The difference is the bit-vector difference (41_alu.md R130). -/
theorem subWithBorrow_result (a v : Byte) (c : Nat) : (subWithBorrow a v c).result = a - v - BitVec.ofNat 8 c := by
  apply BitVec.eq_of_toNat_eq
  have := a.isLt
  have := v.isLt
  simp only [subWithBorrow, BitVec.toNat_ofInt, BitVec.toNat_sub, BitVec.toNat_ofNat]
  omega

theorem addWithCarry_z (a v : Byte) (c : Nat) : (addWithCarry a v c).z = ((addWithCarry a v c).result == 0#8) := rfl

theorem subWithBorrow_z (a v : Byte) (c : Nat) : (subWithBorrow a v c).z = ((subWithBorrow a v c).result == 0#8) := rfl

end Sys2Proof.Machine
end

