-- ==== Sys2Proof/Laws/Registers.lean ====
section
/-! SUPPORT. Words and their bytes, and the register pairs as numbers (10_state.md R23). -/

namespace Sys2Proof.Machine

theorem joinBytes_toNat (hi lo : Byte) : (joinBytes hi lo).toNat = hi.toNat * 256 + lo.toNat := by
  have := lo.isLt
  rw [joinBytes, BitVec.toNat_append, ← Nat.shiftLeft_add_eq_or_of_lt this, Nat.shiftLeft_eq]

@[simp] theorem highByte_joinBytes (hi lo : Byte) : highByte (joinBytes hi lo) = hi := by
  apply BitVec.eq_of_toNat_eq
  have := lo.isLt
  have := hi.isLt
  simp [highByte, joinBytes_toNat, Nat.shiftRight_eq_div_pow]
  omega

@[simp] theorem lowByte_joinBytes (hi lo : Byte) : lowByte (joinBytes hi lo) = lo := by
  apply BitVec.eq_of_toNat_eq
  have := lo.isLt
  simp [lowByte, joinBytes_toNat]
  omega

theorem highByte_eq (w : Word) : highByte w = BitVec.ofNat 8 (w.toNat / 256) := by
  apply BitVec.eq_of_toNat_eq
  simp [highByte, Nat.shiftRight_eq_div_pow]

theorem lowByte_eq (w : Word) : lowByte w = BitVec.ofNat 8 (w.toNat % 256) := by
  apply BitVec.eq_of_toNat_eq
  simp [lowByte]

@[simp] theorem joinBytes_highByte_lowByte (w : Word) : joinBytes (highByte w) (lowByte w) = w := by
  apply BitVec.eq_of_toNat_eq
  have := w.isLt
  rw [joinBytes_toNat, highByte_eq, lowByte_eq]
  simp
  omega

/-- A pair's value, high byte first (10_state.md R23). -/
theorem readPair_hl_toNat (s : State) : (s.readPair .hl).toNat = s.h.toNat * 256 + s.l.toNat := joinBytes_toNat _ _

theorem readPair_bc_toNat (s : State) : (s.readPair .bc).toNat = s.b.toNat * 256 + s.c.toNat := joinBytes_toNat _ _

theorem readPair_de_toNat (s : State) : (s.readPair .de).toNat = s.d.toNat * 256 + s.e.toNat := joinBytes_toNat _ _

/-- The 16-bit immediate, low byte first (30_encoding.md R77). -/
theorem imm16_eq (s : State) : s.imm16 = joinBytes (s.readByte (s.pc + 2)) (s.readByte (s.pc + 1)) := rfl

end Sys2Proof.Machine
end

