-- ==== Sys2Proof/Laws/State.lean ====
section
/-! SUPPORT. What each update of the state leaves in each field, one lemma per field and update, so that no later proof unfolds a
record update. -/

namespace Sys2Proof.Machine

variable (s : State)

/-! ## One byte of memory -/

@[simp] theorem writeByte_a (addr : Word) (v : Byte) : (s.writeByte addr v).a = s.a := rfl
@[simp] theorem writeByte_b (addr : Word) (v : Byte) : (s.writeByte addr v).b = s.b := rfl
@[simp] theorem writeByte_c (addr : Word) (v : Byte) : (s.writeByte addr v).c = s.c := rfl
@[simp] theorem writeByte_d (addr : Word) (v : Byte) : (s.writeByte addr v).d = s.d := rfl
@[simp] theorem writeByte_e (addr : Word) (v : Byte) : (s.writeByte addr v).e = s.e := rfl
@[simp] theorem writeByte_h (addr : Word) (v : Byte) : (s.writeByte addr v).h = s.h := rfl
@[simp] theorem writeByte_l (addr : Word) (v : Byte) : (s.writeByte addr v).l = s.l := rfl
@[simp] theorem writeByte_f (addr : Word) (v : Byte) : (s.writeByte addr v).f = s.f := rfl
@[simp] theorem writeByte_sp (addr : Word) (v : Byte) : (s.writeByte addr v).sp = s.sp := rfl
@[simp] theorem writeByte_pc (addr : Word) (v : Byte) : (s.writeByte addr v).pc = s.pc := rfl
@[simp] theorem writeByte_cyc (addr : Word) (v : Byte) : (s.writeByte addr v).cyc = s.cyc := rfl
@[simp] theorem writeByte_fault (addr : Word) (v : Byte) : (s.writeByte addr v).fault = s.fault := rfl
@[simp] theorem writeByte_mem (addr : Word) (v : Byte) : (s.writeByte addr v).mem = s.mem.write addr.toNat v := rfl

/-! ## General registers -/

@[simp] theorem writeReg_a (v : Byte) : s.writeReg .a v = { s with a := v } := rfl
@[simp] theorem writeReg_b (v : Byte) : s.writeReg .b v = { s with b := v } := rfl
@[simp] theorem writeReg_c (v : Byte) : s.writeReg .c v = { s with c := v } := rfl
@[simp] theorem writeReg_d (v : Byte) : s.writeReg .d v = { s with d := v } := rfl
@[simp] theorem writeReg_e (v : Byte) : s.writeReg .e v = { s with e := v } := rfl
@[simp] theorem writeReg_h (v : Byte) : s.writeReg .h v = { s with h := v } := rfl
@[simp] theorem writeReg_l (v : Byte) : s.writeReg .l v = { s with l := v } := rfl

@[simp] theorem writeReg_keeps_f (r : Reg8) (v : Byte) : (s.writeReg r v).f = s.f := by cases r <;> rfl
@[simp] theorem writeReg_keeps_sp (r : Reg8) (v : Byte) : (s.writeReg r v).sp = s.sp := by cases r <;> rfl
@[simp] theorem writeReg_keeps_pc (r : Reg8) (v : Byte) : (s.writeReg r v).pc = s.pc := by cases r <;> rfl
@[simp] theorem writeReg_keeps_mem (r : Reg8) (v : Byte) : (s.writeReg r v).mem = s.mem := by cases r <;> rfl
@[simp] theorem writeReg_keeps_cyc (r : Reg8) (v : Byte) : (s.writeReg r v).cyc = s.cyc := by cases r <;> rfl
@[simp] theorem writeReg_keeps_fault (r : Reg8) (v : Byte) : (s.writeReg r v).fault = s.fault := by cases r <;> rfl

/-! ## The flags register -/

@[simp] theorem writeF_a (v : Byte) : (s.writeF v).a = s.a := rfl
@[simp] theorem writeF_b (v : Byte) : (s.writeF v).b = s.b := rfl
@[simp] theorem writeF_c (v : Byte) : (s.writeF v).c = s.c := rfl
@[simp] theorem writeF_d (v : Byte) : (s.writeF v).d = s.d := rfl
@[simp] theorem writeF_e (v : Byte) : (s.writeF v).e = s.e := rfl
@[simp] theorem writeF_h (v : Byte) : (s.writeF v).h = s.h := rfl
@[simp] theorem writeF_l (v : Byte) : (s.writeF v).l = s.l := rfl
@[simp] theorem writeF_sp (v : Byte) : (s.writeF v).sp = s.sp := rfl
@[simp] theorem writeF_pc (v : Byte) : (s.writeF v).pc = s.pc := rfl
@[simp] theorem writeF_mem (v : Byte) : (s.writeF v).mem = s.mem := rfl
@[simp] theorem writeF_cyc (v : Byte) : (s.writeF v).cyc = s.cyc := rfl
@[simp] theorem writeF_fault (v : Byte) : (s.writeF v).fault = s.fault := rfl
@[simp] theorem writeF_f (v : Byte) : (s.writeF v).f = v &&& 0xF0#8 := rfl

@[simp] theorem setFlags_a (z n h c : Bool) : (s.setFlags z n h c).a = s.a := rfl
@[simp] theorem setFlags_b (z n h c : Bool) : (s.setFlags z n h c).b = s.b := rfl
@[simp] theorem setFlags_c (z n h c : Bool) : (s.setFlags z n h c).c = s.c := rfl
@[simp] theorem setFlags_d (z n h c : Bool) : (s.setFlags z n h c).d = s.d := rfl
@[simp] theorem setFlags_e (z n h c : Bool) : (s.setFlags z n h c).e = s.e := rfl
@[simp] theorem setFlags_h (z n h c : Bool) : (s.setFlags z n h c).h = s.h := rfl
@[simp] theorem setFlags_l (z n h c : Bool) : (s.setFlags z n h c).l = s.l := rfl
@[simp] theorem setFlags_sp (z n h c : Bool) : (s.setFlags z n h c).sp = s.sp := rfl
@[simp] theorem setFlags_pc (z n h c : Bool) : (s.setFlags z n h c).pc = s.pc := rfl
@[simp] theorem setFlags_mem (z n h c : Bool) : (s.setFlags z n h c).mem = s.mem := rfl
@[simp] theorem setFlags_cyc (z n h c : Bool) : (s.setFlags z n h c).cyc = s.cyc := rfl
@[simp] theorem setFlags_fault (z n h c : Bool) : (s.setFlags z n h c).fault = s.fault := rfl

/-! ## Pairs and SP -/

@[simp] theorem writePair_af (w : Word) : s.writePair .af w = { s with a := highByte w, f := lowByte w &&& 0xF0#8 } := rfl
@[simp] theorem writePair_bc (w : Word) : s.writePair .bc w = { s with b := highByte w, c := lowByte w } := rfl
@[simp] theorem writePair_de (w : Word) : s.writePair .de w = { s with d := highByte w, e := lowByte w } := rfl
@[simp] theorem writePair_hl (w : Word) : s.writePair .hl w = { s with h := highByte w, l := lowByte w } := rfl

@[simp] theorem writePair_keeps_sp (p : Pair) (w : Word) : (s.writePair p w).sp = s.sp := by cases p <;> rfl
@[simp] theorem writePair_keeps_pc (p : Pair) (w : Word) : (s.writePair p w).pc = s.pc := by cases p <;> rfl
@[simp] theorem writePair_keeps_mem (p : Pair) (w : Word) : (s.writePair p w).mem = s.mem := by cases p <;> rfl
@[simp] theorem writePair_keeps_cyc (p : Pair) (w : Word) : (s.writePair p w).cyc = s.cyc := by cases p <;> rfl
@[simp] theorem writePair_keeps_fault (p : Pair) (w : Word) : (s.writePair p w).fault = s.fault := by cases p <;> rfl

@[simp] theorem writeWide_af (w : Word) : s.writeWide .af w = s.writePair .af w := rfl
@[simp] theorem writeWide_bc (w : Word) : s.writeWide .bc w = s.writePair .bc w := rfl
@[simp] theorem writeWide_de (w : Word) : s.writeWide .de w = s.writePair .de w := rfl
@[simp] theorem writeWide_hl (w : Word) : s.writeWide .hl w = s.writePair .hl w := rfl
@[simp] theorem writeWide_sp (w : Word) : s.writeWide .sp w = { s with sp := w } := rfl

@[simp] theorem writeWide_keeps_pc (r : WideReg) (w : Word) : (s.writeWide r w).pc = s.pc := by cases r <;> rfl
@[simp] theorem writeWide_keeps_mem (r : WideReg) (w : Word) : (s.writeWide r w).mem = s.mem := by cases r <;> rfl
@[simp] theorem writeWide_keeps_cyc (r : WideReg) (w : Word) : (s.writeWide r w).cyc = s.cyc := by cases r <;> rfl
@[simp] theorem writeWide_keeps_fault (r : WideReg) (w : Word) : (s.writeWide r w).fault = s.fault := by cases r <;> rfl

/-! ## The post-increment and post-decrement store -/

@[simp] theorem storeThenSetHL_eq (v : Byte) (w : Word) :
    s.storeThenSetHL v w =
      { s with mem := s.mem.write (s.readPair .hl).toNat v, h := highByte w, l := lowByte w } := rfl

/-! ## Taking a fault -/

@[simp] theorem takeFault_a (x : Fault) : (takeFault x s).a = s.a := rfl
@[simp] theorem takeFault_b (x : Fault) : (takeFault x s).b = s.b := rfl
@[simp] theorem takeFault_c (x : Fault) : (takeFault x s).c = s.c := rfl
@[simp] theorem takeFault_d (x : Fault) : (takeFault x s).d = s.d := rfl
@[simp] theorem takeFault_e (x : Fault) : (takeFault x s).e = s.e := rfl
@[simp] theorem takeFault_h (x : Fault) : (takeFault x s).h = s.h := rfl
@[simp] theorem takeFault_l (x : Fault) : (takeFault x s).l = s.l := rfl
@[simp] theorem takeFault_f (x : Fault) : (takeFault x s).f = s.f := rfl
@[simp] theorem takeFault_sp (x : Fault) : (takeFault x s).sp = s.sp := rfl
@[simp] theorem takeFault_pc (x : Fault) : (takeFault x s).pc = s.pc := rfl
@[simp] theorem takeFault_mem (x : Fault) : (takeFault x s).mem = s.mem := rfl
@[simp] theorem takeFault_cyc (x : Fault) : (takeFault x s).cyc = s.cyc := rfl
@[simp] theorem takeFault_fault (x : Fault) : (takeFault x s).fault = some x := rfl

/-! ## The sequencer -/

variable (r : Executed)

@[simp] theorem retire_a : (retire r).a = r.state.a := rfl
@[simp] theorem retire_b : (retire r).b = r.state.b := rfl
@[simp] theorem retire_c : (retire r).c = r.state.c := rfl
@[simp] theorem retire_d : (retire r).d = r.state.d := rfl
@[simp] theorem retire_e : (retire r).e = r.state.e := rfl
@[simp] theorem retire_h : (retire r).h = r.state.h := rfl
@[simp] theorem retire_l : (retire r).l = r.state.l := rfl
@[simp] theorem retire_f : (retire r).f = r.state.f := rfl
@[simp] theorem retire_sp : (retire r).sp = r.state.sp := rfl
@[simp] theorem retire_mem : (retire r).mem = r.state.mem := rfl
@[simp] theorem retire_fault : (retire r).fault = r.state.fault := rfl
@[simp] theorem retire_pc : (retire r).pc = r.state.pc + BitVec.ofNat 16 r.bytesConsumed := rfl
@[simp] theorem retire_cyc : (retire r).cyc = r.state.cyc + r.cyclesConsumed := rfl

end Sys2Proof.Machine
end

