-- ==== Sys2Proof/Laws/Exec.lean ====
section
/-! SUPPORT. What the shared `execute` arms leave, what each arm of `exec` is, and the case split of the instruction set into the
arithmetic family and the twelve loads. -/

namespace Sys2Proof.Machine

/-! ## The arithmetic family -/

/-- The result and flags an arithmetic operation computes on A, its operand and the incoming carry (41_alu.md R121 to R128). -/
def aluOf (op : AluOp) (a v : Byte) (c : Bool) : AluResult :=
  match op with
  | .add => aluAdd a v
  | .addCarry => aluAddCarry a v c
  | .sub => aluSub a v
  | .subCarry => aluSubCarry a v c
  | .and => aluAnd a v
  | .xor => aluXor a v
  | .or => aluOr a v
  | .compare => aluSub a v

/-- The F an arithmetic result writes. -/
def AluResult.flags (r : AluResult) : Byte := packFlags r.z r.n r.h r.c

/-- Everything an arithmetic instruction does: A (but for CP) and F are written, nothing else (41_alu.md R120). -/
theorem executeArith_eq (op : AluOp) (t : ArithmeticTarget) (s : State) :
    executeArith op t s =
      { state :=
          { s with
            a := if op = .compare then s.a else (aluOf op s.a (s.operand t) (s.readFlag .c)).result
            f := (aluOf op s.a (s.operand t) (s.readFlag .c)).flags }
        bytesConsumed := 1
        cyclesConsumed := targetCycles t } := by
  cases op <;>
    simp [executeArith, executeAdd, executeAddCarry, executeSub, executeSubCarry, executeAnd, executeXor, executeOr,
      executeCompare, writeResult, writeFlagsOnly, aluOf, AluResult.flags, State.setFlags, State.writeF]

theorem AluResult.flags_low_zero (r : AluResult) : r.flags &&& 0x0F#8 = 0x00#8 := packFlags_low_zero _ _ _ _

/-- The arms of the arithmetic family, by operation and target. -/
theorem exec_ofArith (op : AluOp) (t : ArithmeticTarget) (s : State) :
    exec (.ofArith op t) s = complete (executeArith op t s) := by
  cases op <;> cases t <;> rfl

@[simp] theorem toInstruction_ofArith (op : AluOp) (t : ArithmeticTarget) :
    (Instr.ofArith op t).toInstruction = .arith op t := by
  cases op <;> cases t <;> rfl

theorem encodeOpcode_ofArith (op : AluOp) (t : ArithmeticTarget) : 0x80 ≤ (encodeOpcode (.ofArith op t)).toNat := by
  cases op <;> cases t <;> decide

/-! ## The twelve loads -/

section
variable (s : State)

theorem exec_ldBCd16 : exec .ldBCd16 s = complete (executeLoadWide .bc s) := rfl
theorem exec_ldDEd16 : exec .ldDEd16 s = complete (executeLoadWide .de s) := rfl
theorem exec_ldHLd16 : exec .ldHLd16 s = complete (executeLoadWide .hl s) := rfl
theorem exec_ldSPd16 : exec .ldSPd16 s = complete (executeLoadWide .sp s) := rfl
theorem exec_ldMemBCA : exec .ldMemBCA s = complete (executeStoreA .bc s) := rfl
theorem exec_ldMemDEA : exec .ldMemDEA s = complete (executeStoreA .de s) := rfl
theorem exec_ldMemHLIncA : exec .ldMemHLIncA s = complete (executeStoreAInc s) := rfl
theorem exec_ldMemHLDecA : exec .ldMemHLDecA s = complete (executeStoreADec s) := rfl
theorem exec_ldBd8 : exec .ldBd8 s = complete (executeLoadImm8 .b s) := rfl
theorem exec_ldDd8 : exec .ldDd8 s = complete (executeLoadImm8 .d s) := rfl
theorem exec_ldHd8 : exec .ldHd8 s = complete (executeLoadImm8 .h s) := rfl
theorem exec_ldMemHLd8 : exec .ldMemHLd8 s = complete (executeStoreImm8 s) := rfl

end

/-! ## Every instruction -/

/-- A property of every instruction is shown for the arithmetic family as a whole and for each load (`induction i using instr_cases`). -/
theorem instr_cases {motive : Instr → Prop} (arith : ∀ op t, motive (.ofArith op t))
    (ldBCd16 : motive .ldBCd16)
    (ldDEd16 : motive .ldDEd16)
    (ldHLd16 : motive .ldHLd16)
    (ldSPd16 : motive .ldSPd16)
    (ldMemBCA : motive .ldMemBCA)
    (ldMemDEA : motive .ldMemDEA)
    (ldMemHLIncA : motive .ldMemHLIncA)
    (ldMemHLDecA : motive .ldMemHLDecA)
    (ldBd8 : motive .ldBd8)
    (ldDd8 : motive .ldDd8)
    (ldHd8 : motive .ldHd8)
    (ldMemHLd8 : motive .ldMemHLd8) : ∀ i, motive i := by
  intro i
  cases i
  case addAB => exact arith .add .b
  case addAC => exact arith .add .c
  case addAD => exact arith .add .d
  case addAE => exact arith .add .e
  case addAH => exact arith .add .h
  case addAL => exact arith .add .l
  case addAMemHL => exact arith .add .indirectHL
  case addAA => exact arith .add .a
  case adcAB => exact arith .addCarry .b
  case adcAC => exact arith .addCarry .c
  case adcAD => exact arith .addCarry .d
  case adcAE => exact arith .addCarry .e
  case adcAH => exact arith .addCarry .h
  case adcAL => exact arith .addCarry .l
  case adcAMemHL => exact arith .addCarry .indirectHL
  case adcAA => exact arith .addCarry .a
  case subB => exact arith .sub .b
  case subC => exact arith .sub .c
  case subD => exact arith .sub .d
  case subE => exact arith .sub .e
  case subH => exact arith .sub .h
  case subL => exact arith .sub .l
  case subMemHL => exact arith .sub .indirectHL
  case subA => exact arith .sub .a
  case sbcAB => exact arith .subCarry .b
  case sbcAC => exact arith .subCarry .c
  case sbcAD => exact arith .subCarry .d
  case sbcAE => exact arith .subCarry .e
  case sbcAH => exact arith .subCarry .h
  case sbcAL => exact arith .subCarry .l
  case sbcAMemHL => exact arith .subCarry .indirectHL
  case sbcAA => exact arith .subCarry .a
  case andB => exact arith .and .b
  case andC => exact arith .and .c
  case andD => exact arith .and .d
  case andE => exact arith .and .e
  case andH => exact arith .and .h
  case andL => exact arith .and .l
  case andMemHL => exact arith .and .indirectHL
  case andA => exact arith .and .a
  case xorB => exact arith .xor .b
  case xorC => exact arith .xor .c
  case xorD => exact arith .xor .d
  case xorE => exact arith .xor .e
  case xorH => exact arith .xor .h
  case xorL => exact arith .xor .l
  case xorMemHL => exact arith .xor .indirectHL
  case xorA => exact arith .xor .a
  case orB => exact arith .or .b
  case orC => exact arith .or .c
  case orD => exact arith .or .d
  case orE => exact arith .or .e
  case orH => exact arith .or .h
  case orL => exact arith .or .l
  case orMemHL => exact arith .or .indirectHL
  case orA => exact arith .or .a
  case cpB => exact arith .compare .b
  case cpC => exact arith .compare .c
  case cpD => exact arith .compare .d
  case cpE => exact arith .compare .e
  case cpH => exact arith .compare .h
  case cpL => exact arith .compare .l
  case cpMemHL => exact arith .compare .indirectHL
  case cpA => exact arith .compare .a
  case ldBCd16 => exact ldBCd16
  case ldDEd16 => exact ldDEd16
  case ldHLd16 => exact ldHLd16
  case ldSPd16 => exact ldSPd16
  case ldMemBCA => exact ldMemBCA
  case ldMemDEA => exact ldMemDEA
  case ldMemHLIncA => exact ldMemHLIncA
  case ldMemHLDecA => exact ldMemHLDecA
  case ldBd8 => exact ldBd8
  case ldDd8 => exact ldDd8
  case ldHd8 => exact ldHd8
  case ldMemHLd8 => exact ldMemHLd8

@[simp] theorem complete_eq_next (r : Executed) (t : State) : complete r = .next t ↔ t = retire r := by
  simp [complete, eq_comm]

end Sys2Proof.Machine
end

