-- ==== Sys2Proof/Laws/Memory.lean ====
section
/-! SUPPORT. The laws of memory: a read after a write, the canonical form kept by every write, and equal canonical memories from
equal reads. -/

namespace Sys2Proof.Machine

theorem read_erase (m : Memory) (addr x : Nat) :
    (m.erase addr).read x = if x = addr then Memory.unlistedByte else m.read x := by
  induction m with
  | nil => simp [Memory.erase, Memory.read]
  | cons cell m ih =>
    obtain ⟨k, v⟩ := cell
    by_cases hk : k = addr
    · subst hk
      rw [Memory.erase, if_pos rfl, ih]
      by_cases hx : x = k
      · simp [hx]
      · simp [Memory.read, hx, Ne.symm hx]
    · rw [Memory.erase, if_neg hk, Memory.read, Memory.read, ih]
      by_cases hx : k = x
      · subst hx
        simp [hk]
      · simp [hx]

theorem read_insert (m : Memory) (addr x : Nat) (v : Byte) :
    (m.insert addr v).read x = if x = addr then v else m.read x := by
  induction m with
  | nil => simp [Memory.insert, Memory.read, eq_comm]
  | cons cell m ih =>
    obtain ⟨k, w⟩ := cell
    by_cases hlt : addr < k
    · rw [Memory.insert, if_pos hlt, Memory.read]
      simp [eq_comm]
    · by_cases hk : k = addr
      · subst hk
        rw [Memory.insert, if_neg hlt, if_pos rfl, Memory.read]
        by_cases hx : k = x
        · simp [hx]
        · simp [Memory.read, hx, Ne.symm hx]
      · rw [Memory.insert, if_neg hlt, if_neg hk, Memory.read, Memory.read, ih]
        by_cases hx : k = x
        · subst hx
          simp [hk]
        · simp [hx]

/-- Everything a write does to what is read (20_memory.md R57). -/
theorem read_write (m : Memory) (addr x : Nat) (v : Byte) :
    (m.write addr v).read x = if x = addr then v else m.read x := by
  by_cases hv : v = Memory.unlistedByte
  · simp [Memory.write, hv, read_erase]
  · simp [Memory.write, hv, read_insert]

@[simp] theorem read_write_same (m : Memory) (addr : Nat) (v : Byte) : (m.write addr v).read addr = v := by
  simp [read_write]

theorem read_write_other (m : Memory) {addr x : Nat} (v : Byte) (hx : x ≠ addr) : (m.write addr v).read x = m.read x := by
  simp [read_write, hx]

/-- The canonical form of a list with a first entry, field by field. -/
theorem canonicalFrom_cons (lo k : Nat) (v : Byte) (m : Memory) :
    Memory.canonicalFrom lo ((k, v) :: m) = true ↔
      lo ≤ k ∧ k < Config.addressSpace ∧ v ≠ Memory.unlistedByte ∧ Memory.canonicalFrom (k + 1) m = true := by
  simp [Memory.canonicalFrom, and_assoc]

theorem canonicalFrom_mono {lo lo' : Nat} (m : Memory) (hle : lo' ≤ lo) (hm : Memory.canonicalFrom lo m = true) :
    Memory.canonicalFrom lo' m = true := by
  cases m with
  | nil => rfl
  | cons cell m =>
    obtain ⟨k, v⟩ := cell
    rw [canonicalFrom_cons] at hm ⊢
    exact ⟨by omega, hm.2⟩

/-- A canonical list reads as unlisted below its first possible address. -/
theorem read_below {lo x : Nat} (m : Memory) (hm : Memory.canonicalFrom lo m = true) (hx : x < lo) :
    m.read x = Memory.unlistedByte := by
  induction m generalizing lo with
  | nil => rfl
  | cons cell m ih =>
    obtain ⟨k, v⟩ := cell
    rw [canonicalFrom_cons] at hm
    rw [Memory.read, if_neg (by omega)]
    exact ih hm.2.2.2 (by omega)

theorem canonicalFrom_erase {lo : Nat} (m : Memory) (addr : Nat) (hm : Memory.canonicalFrom lo m = true) :
    Memory.canonicalFrom lo (m.erase addr) = true := by
  induction m generalizing lo with
  | nil => rfl
  | cons cell m ih =>
    obtain ⟨k, v⟩ := cell
    rw [canonicalFrom_cons] at hm
    by_cases hk : k = addr
    · simpa [Memory.erase, hk] using canonicalFrom_mono _ (by omega) (hk ▸ ih hm.2.2.2)
    · simp only [Memory.erase, hk, if_false]
      exact (canonicalFrom_cons _ _ _ _).2 ⟨hm.1, hm.2.1, hm.2.2.1, ih hm.2.2.2⟩

theorem canonicalFrom_insert {lo addr : Nat} {v : Byte} (m : Memory) (hm : Memory.canonicalFrom lo m = true)
    (hlo : lo ≤ addr) (haddr : addr < Config.addressSpace) (hv : v ≠ Memory.unlistedByte) :
    Memory.canonicalFrom lo (m.insert addr v) = true := by
  induction m generalizing lo with
  | nil => exact (canonicalFrom_cons _ _ _ _).2 ⟨hlo, haddr, hv, rfl⟩
  | cons cell m ih =>
    obtain ⟨k, w⟩ := cell
    rw [canonicalFrom_cons] at hm
    by_cases hlt : addr < k
    · simp only [Memory.insert, hlt, if_true]
      exact (canonicalFrom_cons _ _ _ _).2
        ⟨hlo, haddr, hv, (canonicalFrom_cons _ _ _ _).2 ⟨by omega, hm.2⟩⟩
    · by_cases hk : k = addr
      · rw [Memory.insert, if_neg hlt, if_pos hk]
        exact (canonicalFrom_cons _ _ _ _).2 ⟨hlo, haddr, hv, hk ▸ hm.2.2.2⟩
      · simp only [Memory.insert, hlt, hk, if_false]
        exact (canonicalFrom_cons _ _ _ _).2 ⟨hm.1, hm.2.1, hm.2.2.1, ih hm.2.2.2 (by omega)⟩

/-- Every write inside the address space keeps the canonical form. -/
theorem write_keeps_wf (m : Memory) (addr : Nat) (v : Byte) (hm : m.wf = true) (haddr : addr < Config.addressSpace) :
    (m.write addr v).wf = true := by
  by_cases hv : v = Memory.unlistedByte
  · rw [Memory.write, if_pos hv]
    exact canonicalFrom_erase m addr hm
  · rw [Memory.write, if_neg hv]
    exact canonicalFrom_insert m hm (Nat.zero_le _) haddr hv

/-- A 16-bit address is inside the address space (20_memory.md R51). -/
theorem word_in_addressSpace (addr : Word) : addr.toNat < Config.addressSpace := addr.isLt

/-- The state's write keeps the canonical form. -/
theorem writeByte_keeps_wf (s : State) (addr : Word) (v : Byte) (hm : s.mem.wf = true) :
    (s.writeByte addr v).mem.wf = true :=
  write_keeps_wf s.mem addr.toNat v hm (word_in_addressSpace addr)

theorem resetWith_mem (mem0 : Memory) : (State.resetWith mem0).mem = mem0 := rfl

theorem reset_mem_wf : State.reset.mem.wf = true := rfl

/-- Two canonical memories with equal reads are the same list. -/
theorem canonicalFrom_ext {lo : Nat} (m m' : Memory) (hm : Memory.canonicalFrom lo m = true)
    (hm' : Memory.canonicalFrom lo m' = true) (hread : ∀ x, m.read x = m'.read x) : m = m' := by
  induction m generalizing lo m' with
  | nil =>
    cases m' with
    | nil => rfl
    | cons cell m' =>
      obtain ⟨k, v⟩ := cell
      rw [canonicalFrom_cons] at hm'
      have := hread k
      simp only [Memory.read, if_true] at this
      exact absurd this.symm hm'.2.2.1
  | cons cell m ih =>
    obtain ⟨k, v⟩ := cell
    rw [canonicalFrom_cons] at hm
    cases m' with
    | nil =>
      have := hread k
      simp only [Memory.read, if_true] at this
      exact absurd this hm.2.2.1
    | cons cell' m' =>
      obtain ⟨k', v'⟩ := cell'
      rw [canonicalFrom_cons] at hm'
      have hk : k = k' := by
        rcases Nat.lt_trichotomy k k' with hlt | heq | hgt
        · have := hread k
          rw [Memory.read, if_pos rfl, Memory.read, if_neg (by omega), read_below m' hm'.2.2.2 (by omega)] at this
          exact absurd this hm.2.2.1
        · exact heq
        · have := hread k'
          rw [Memory.read, if_neg (by omega), read_below m hm.2.2.2 (by omega), Memory.read, if_pos rfl] at this
          exact absurd this.symm hm'.2.2.1
      subst hk
      have hv : v = v' := by simpa [Memory.read] using hread k
      subst hv
      refine congrArg _ (ih m' hm.2.2.2 hm'.2.2.2 fun x => ?_)
      by_cases hx : k = x
      · subst hx
        rw [read_below m hm.2.2.2 (Nat.lt_succ_self _), read_below m' hm'.2.2.2 (Nat.lt_succ_self _)]
      · simpa [Memory.read, hx] using hread x

/-- Writing back the byte that is there leaves a canonical memory the same data. -/
theorem write_read_same (m : Memory) (addr : Nat) (hm : m.wf = true) (haddr : addr < Config.addressSpace) :
    m.write addr (m.read addr) = m :=
  canonicalFrom_ext _ _ (write_keeps_wf m addr _ hm haddr) hm fun x => by
    by_cases hx : x = addr <;> simp [read_write, hx]

end Sys2Proof.Machine
end

