-- ==== Sys2Proof/Laws/Step.lean ====
section
/-! SUPPORT. What a step can do, said once; a step that runs an instruction; and the placing of a table word. -/

namespace Sys2Proof.Machine

theorem step_latched {s : State} {fault : Fault} (h : s.fault = some fault) : step s = .fault fault := by
  simp [step, h]

theorem step_instruction {s : State} {i : Instr} (h : s.fault = none) (hd : decode s.fetchOpcode = .instruction i) :
    step s = exec i s := by
  simp [step, h, hd]

theorem step_failure {s : State} {opcode : Byte} (h : s.fault = none) (hd : decode s.fetchOpcode = .failure opcode) :
    step s = .next (takeFault (.decodeFailure s.fetchOpcode s.pc) s) := by
  simp [step, h, hd, decode_failure_names hd]

/-- Everything a step that answers next can have done (40_step.md R101). -/
theorem step_next_cases {s t : State} (h : step s = .next t) :
    s.fault = none ∧
    ((∃ i, decode s.fetchOpcode = .instruction i ∧ exec i s = .next t) ∨
      (decode s.fetchOpcode = .failure s.fetchOpcode ∧ t = takeFault (.decodeFailure s.fetchOpcode s.pc) s)) := by
  cases hf : s.fault with
  | some fault => simp [step_latched hf] at h
  | none =>
    cases hd : decode s.fetchOpcode with
    | instruction i => exact ⟨rfl, .inl ⟨i, rfl, by rwa [step_instruction hf hd] at h⟩⟩
    | failure opcode =>
      rw [step_failure hf hd] at h
      exact ⟨rfl, .inr ⟨by rw [decode_failure_names hd], by simpa [eq_comm] using h⟩⟩

/-- Every instruction answers a next state, the latch as it was (30_encoding.md R78: every decoded value has a meaning). -/
theorem exec_next (i : Instr) (s : State) : ∃ t, exec i s = .next t ∧ t.fault = s.fault := by
  induction i using instr_cases with
  | arith op tg => exact ⟨_, exec_ofArith op tg s, by rw [retire_fault, executeArith_eq]⟩
  | _ => exact ⟨_, rfl, rfl⟩

/-- The two bytes after an address are not that address (the space has 65536 bytes: 20_memory.md R50). -/
theorem following_ne (pc : Word) :
    (pc + 1).toNat ≠ pc.toNat ∧ (pc + 2).toNat ≠ pc.toNat ∧ (pc + 2).toNat ≠ (pc + 1).toNat := by
  refine ⟨?_, ?_, ?_⟩ <;> bv_omega

/-- What a table word placed at PC leaves where the step fetches, the latch clear. -/
theorem withFetchWord_fetch (s : State) (nbits w : Nat) :
    (s.withFetchWord nbits w).fetchOpcode = tableByte nbits w 0 ∧ (s.withFetchWord nbits w).fault = none ∧
    (s.withFetchWord nbits w).pc = s.pc := by
  refine ⟨?_, rfl, rfl⟩
  have h := following_ne s.pc
  simp only [State.withFetchWord, State.writeBytes, State.fetchOpcode, State.readByte, writeByte_pc, writeByte_mem]
  rw [read_write_other _ _ (by rw [show s.pc + 1 + 1 = s.pc + 2 by rw [BitVec.add_assoc]; rfl]; exact h.2.1.symm),
    read_write_other _ _ h.1.symm, read_write_same]

/-- The step after placing a table word runs exactly the instruction the decoder reads from it. -/
theorem step_withFetchWord (s : State) (nbits w : Nat) (i : Instr) (h : decodeTableWord nbits w = some i) :
    step (s.withFetchWord nbits w) = exec i (s.withFetchWord nbits w) := by
  obtain ⟨hb, hf, -⟩ := withFetchWord_fetch s nbits w
  refine step_instruction hf ?_
  rw [hb]
  cases hd : decode (tableByte nbits w 0) with
  | instruction j => simp [decodeTableWord, hd] at h; simp [h]
  | failure b => simp [decodeTableWord, hd] at h

/-- A run of one step more is that step and then the run (40_step.md R110). -/
theorem run_succ_next (M : Host.Core) {s t : M.State} (h : M.step s = .next t) (n : Nat) : M.run (n + 1) s = M.run n t := by
  rw [Host.Core.run, h]

theorem run_succ_fault (M : Host.Core) {s : M.State} {fault : M.Fault} (h : M.step s = .fault fault) (n : Nat) :
    M.run (n + 1) s = .fault fault := by
  rw [Host.Core.run, h]

theorem run_next {s t : State} (h : step s = .next t) (n : Nat) : core.run (n + 1) s = core.run n t :=
  run_succ_next core h n

/-- A run of at least one step from a set latch stops with the latched fault (60_exceptions.md R183). -/
theorem run_latched {s : State} {fault : Fault} (h : s.fault = some fault) (n : Nat) : core.run (n + 1) s = .fault fault :=
  run_succ_fault core (step_latched h) n

theorem reset_inv : State.reset.Inv := by decide

end Sys2Proof.Machine
end

