-- ==== Sys2Proof/Laws/Engine.lean ====
section
/-! SUPPORT. The `execute` interface: what a load of the engine-defined set does, and what any other value does (42_load.md R158,
60_exceptions.md R182). -/

namespace Sys2Proof.Machine

theorem execute_arith (op : AluOp) (t : ArithmeticTarget) (s : State) : execute (.arith op t) s = .done (executeArith op t s) :=
  rfl

/-- A value outside the engine-defined set is a violation that names it. -/
theorem execute_undefined {ins : Instruction} (h : ins.wellFormed = false) (s : State) : execute ins s = .violation ins := by
  cases ins with
  | arith op t => simp [Instruction.wellFormed] at h
  | load dst src => simp only [Instruction.wellFormed] at h; simp [execute, h]

/-- A value of the engine-defined set is executed, the latch as it was. -/
theorem execute_defined {ins : Instruction} (h : ins.wellFormed = true) (s : State) :
    ∃ r, execute ins s = .done r ∧ r.state.fault = s.fault := by
  cases ins with
  | arith op t => exact ⟨_, rfl, by rw [executeArith_eq]⟩
  | load dst src =>
    revert h
    rw [Instruction.wellFormed]
    fun_cases LoadTarget.definedPair dst src <;> intro h
    any_goals exact ⟨_, rfl, rfl⟩
    · rename_i r _
      cases r <;> exact ⟨_, rfl, rfl⟩
    · cases h

theorem applyInstruction_violation {ins : Instruction} (h : ins.wellFormed = false) (s : State) :
    applyInstruction ins s = .next (takeFault (.engineContractViolation ins) s) := by
  simp [applyInstruction, execute_undefined h]

/-! ## The report of a step -/

theorem report_latched {s : State} {fault : Fault} (h : s.fault = some fault) : report s = ⟨[], s.pc, 0, 0, some fault⟩ := by
  simp [report, h]

theorem report_failure {s : State} {opcode : Byte} (h : s.fault = none) (hd : decode s.fetchOpcode = .failure opcode) :
    report s = ⟨[.fetch s.pc], s.pc, 0, 0, some (.decodeFailure s.fetchOpcode s.pc)⟩ := by
  simp [report, h, hd, decode_failure_names hd]

theorem report_instruction {s : State} {i : Instr} {r : Executed} (h : s.fault = none)
    (hd : decode s.fetchOpcode = .instruction i) (he : execute i.toInstruction s = .done r) :
    report s =
      ⟨fetchesFrom s.pc r.bytesConsumed ++ dataAccesses i.toInstruction s, (retire r).pc, r.bytesConsumed, r.cyclesConsumed, none⟩ := by
  simp [report, h, hd, he]

/-- What an instruction executes: the return value of `execute` on its vocabulary value, which its `exec` completes. -/
theorem exec_done (i : Instr) (s : State) : ∃ r, execute i.toInstruction s = .done r ∧ exec i s = complete r := by
  induction i using instr_cases with
  | arith op t => exact ⟨_, by rw [toInstruction_ofArith, execute_arith], exec_ofArith op t s⟩
  | _ => exact ⟨_, rfl, rfl⟩

end Sys2Proof.Machine
end

