-- ==== Sys2Proof/Tests/Slice0.lean ====
section
/-! SUPPORT. Tests. Expected values are transcribed from spec/95_test_vectors.md (the vector's id stands in each test's comment or name)
or written out from the encoding tables of spec/30_encoding.md; then, for every statement with hypotheses, a state and operands that
meet them. -/

namespace Sys2Proof.Tests

open Sys2Proof.Machine

/-- The state before an arithmetic vector of 95_test_vectors.md: the opcode at 0x0000, A, B, and the incoming carry. -/
def alu (opcode a b : Byte) (carry : Bool) : State :=
  { State.reset with mem := [(0, opcode)], a := a, b := b, f := if carry then 0x10#8 else 0x00#8 }

/-- The same with the operand at 0xC000 and HL = 0xC000. -/
def aluHL (opcode a v : Byte) (carry : Bool) : State :=
  { alu opcode a 0 carry with mem := (State.writeBytes (alu opcode a 0 carry) 0xC000#16 [v]).mem, h := 0xC0#8, l := 0x00#8 }

/-- The state before a load vector: bytes from PC on, F = 0xF0. -/
def load (pc : Word) (bytes : List Byte) : State :=
  { State.reset with pc := pc, f := 0xF0#8 }.writeBytes pc bytes

/-- One step answers a next state with this property. -/
def after (s : State) (p : State → Bool) : Bool :=
  match step s with
  | .next t => p t
  | .fault _ => false
  | .refused _ => false

/-- The step leaves this A, F, PC and CYC. -/
def leaves (s : State) (a f : Byte) (pc : Word) (cyc : Nat) : Bool :=
  after s fun t => decide (t.a = a ∧ t.f = f ∧ t.pc = pc ∧ t.cyc = cyc ∧ t.fault = none)

/-! ## Decoding: every opcode of the table, written out from the fields of 30_encoding.md R71 to R76 -/

/-- The opcodes of a list decode to their instructions. -/
def decodesAll (rows : List (Byte × Instr)) : Bool := rows.all fun row => decide (decode row.1 = .instruction row.2)

theorem test_decode_add : decodesAll
    [(0b10000000#8, .addAB), (0b10000001#8, .addAC), (0b10000010#8, .addAD), (0b10000011#8, .addAE),
      (0b10000100#8, .addAH), (0b10000101#8, .addAL), (0b10000110#8, .addAMemHL), (0b10000111#8, .addAA)] = true := by decide

theorem test_decode_adc : decodesAll
    [(0b10001000#8, .adcAB), (0b10001001#8, .adcAC), (0b10001010#8, .adcAD), (0b10001011#8, .adcAE),
      (0b10001100#8, .adcAH), (0b10001101#8, .adcAL), (0b10001110#8, .adcAMemHL), (0b10001111#8, .adcAA)] = true := by decide

theorem test_decode_sub : decodesAll
    [(0b10010000#8, .subB), (0b10010001#8, .subC), (0b10010010#8, .subD), (0b10010011#8, .subE),
      (0b10010100#8, .subH), (0b10010101#8, .subL), (0b10010110#8, .subMemHL), (0b10010111#8, .subA)] = true := by decide

theorem test_decode_sbc : decodesAll
    [(0b10011000#8, .sbcAB), (0b10011001#8, .sbcAC), (0b10011010#8, .sbcAD), (0b10011011#8, .sbcAE),
      (0b10011100#8, .sbcAH), (0b10011101#8, .sbcAL), (0b10011110#8, .sbcAMemHL), (0b10011111#8, .sbcAA)] = true := by decide

theorem test_decode_and : decodesAll
    [(0b10100000#8, .andB), (0b10100001#8, .andC), (0b10100010#8, .andD), (0b10100011#8, .andE),
      (0b10100100#8, .andH), (0b10100101#8, .andL), (0b10100110#8, .andMemHL), (0b10100111#8, .andA)] = true := by decide

theorem test_decode_xor : decodesAll
    [(0b10101000#8, .xorB), (0b10101001#8, .xorC), (0b10101010#8, .xorD), (0b10101011#8, .xorE),
      (0b10101100#8, .xorH), (0b10101101#8, .xorL), (0b10101110#8, .xorMemHL), (0b10101111#8, .xorA)] = true := by decide

theorem test_decode_or : decodesAll
    [(0b10110000#8, .orB), (0b10110001#8, .orC), (0b10110010#8, .orD), (0b10110011#8, .orE),
      (0b10110100#8, .orH), (0b10110101#8, .orL), (0b10110110#8, .orMemHL), (0b10110111#8, .orA)] = true := by decide

theorem test_decode_cp : decodesAll
    [(0b10111000#8, .cpB), (0b10111001#8, .cpC), (0b10111010#8, .cpD), (0b10111011#8, .cpE),
      (0b10111100#8, .cpH), (0b10111101#8, .cpL), (0b10111110#8, .cpMemHL), (0b10111111#8, .cpA)] = true := by decide

theorem test_decode_ld16 : decodesAll
    [(0b00000001#8, .ldBCd16), (0b00010001#8, .ldDEd16), (0b00100001#8, .ldHLd16), (0b00110001#8, .ldSPd16)] = true := by decide

theorem test_decode_sta : decodesAll
    [(0b00000010#8, .ldMemBCA), (0b00010010#8, .ldMemDEA), (0b00100010#8, .ldMemHLIncA), (0b00110010#8, .ldMemHLDecA)] = true := by
  decide

theorem test_decode_ld8 : decodesAll
    [(0b00000110#8, .ldBd8), (0b00010110#8, .ldDd8), (0b00100110#8, .ldHd8), (0b00110110#8, .ldMemHLd8)] = true := by decide

/-- D1 to D14: undefined opcodes. -/
theorem test_decode_failures :
    [0x00#8, 0x03#8, 0x05#8, 0x07#8, 0x0E#8, 0x10#8, 0x20#8, 0x3E#8, 0x40#8, 0x76#8, 0x7F#8, 0xC0#8, 0xCB#8, 0xFF#8].all
      (fun b => decide (decode b = .failure b)) = true := by decide

/-- R78: exactly 76 of the 256 opcodes decode. -/
theorem test_decode_count :
    ((List.range 256).filter fun n => decide (decode (BitVec.ofNat 8 n) ≠ .failure (BitVec.ofNat 8 n))).length = 76 := by decide

/-- The vocabulary values of E4, E8, E11 and E14. -/
theorem test_vocabulary :
    Instr.sbcAL.toInstruction = .arith .subCarry .l ∧ Instr.ldSPd16.toInstruction = .load (.wide .sp) .imm16 ∧
    Instr.ldMemHLIncA.toInstruction = .load .memHLInc (.reg .a) ∧ Instr.ldMemHLd8.toInstruction = .load (.memAt .hl) .imm8 := by decide

/-- L1: the bytes of LD BC,0x1234 are 01 34 12. -/
theorem test_encode_ld16 : encode .ldBCd16 0x1234#16 = [0x01#8, 0x34#8, 0x12#8] := by decide

/-- L15: the bytes of LD B,0x42 are 06 42. -/
theorem test_encode_ld8 : encode .ldBd8 0x42#16 = [0x06#8, 0x42#8] := by decide

theorem test_table_word_bits_above_nbits_are_zero :
    decodeTableWord 8 0xAF80 = some .addAB ∧ decodeTableWord 24 0x123401 = some .ldBCd16 ∧ decodeTableWord 8 0xFF = none := by decide

/-- A table word runs as the first instruction after reset: LD BC,0x1234 as bits 23..0. -/
theorem test_table_word_runs_from_reset :
    after (State.reset.withFetchWord 24 0x123401) (fun t => decide (t.b = 0x12#8 ∧ t.c = 0x34#8 ∧ t.pc = 3#16)) = true := by decide

theorem test_table_word_runs_with_zero_operand :
    after (State.reset.withFetchWord 8 0xFFFF31) (fun t => decide (t.sp = 0#16 ∧ t.pc = 3#16 ∧ t.cyc = 3)) = true := by decide

/-! ## Well-formedness: each ill-formed value of X1 to X7 is refused -/

theorem test_illformed_immediate_destination : Instruction.wellFormed (.load .imm8 (.reg .a)) = false := by decide

theorem test_illformed_wide_immediate_destination : Instruction.wellFormed (.load .imm16 (.wide .hl)) = false := by decide

theorem test_illformed_c_from_imm8 : Instruction.wellFormed (.load (.reg .c) .imm8) = false := by decide

theorem test_illformed_af_from_imm16 : Instruction.wellFormed (.load (.wide .af) .imm16) = false := by decide

theorem test_illformed_hl_from_a : Instruction.wellFormed (.load (.memAt .hl) (.reg .a)) = false := by decide

theorem test_illformed_memory_source : Instruction.wellFormed (.load (.reg .a) (.memAt .bc)) = false := by decide

theorem test_illformed_hlinc_from_b : Instruction.wellFormed (.load .memHLInc (.reg .b)) = false := by decide

/-- X1: the violation is recorded with its value, and nothing else changes. -/
theorem test_contract_violation :
    applyInstruction (.load .imm8 (.reg .a)) State.reset =
      .next { State.reset with fault := some (.engineContractViolation (.load .imm8 (.reg .a))) } := rfl

/-- L22, L24: LD r,r' through the execute interface. -/
theorem test_register_copy :
    execute (.load (.reg .c) (.reg .b)) { State.reset with b := 0x07#8 } = .done ⟨{ State.reset with b := 0x07#8, c := 0x07#8 }, 1, 1⟩ ∧
    execute (.load (.reg .l) (.reg .h)) { State.reset with h := 0xAB#8 } = .done ⟨{ State.reset with h := 0xAB#8, l := 0xAB#8 }, 1, 1⟩ :=
  ⟨rfl, rfl⟩

/-! ## The arithmetic family -/

/-- A3: S4: wrap to 0. -/
theorem test_A3 : leaves (alu 0x80#8 0xFF#8 0x01#8 false) 0x00#8 0xB0#8 1#16 1 = true := by decide

/-- A7: the rejected post-result test would give H = 1. -/
theorem test_A7 : leaves (alu 0x80#8 0x10#8 0x00#8 false) 0x10#8 0x00#8 1#16 1 = true := by decide

/-- A9: half-carry from the carry-in. -/
theorem test_A9 : leaves (alu 0x88#8 0xE1#8 0x0F#8 true) 0xF1#8 0x20#8 1#16 1 = true := by decide

/-- A11: wrap from the carry-in alone. -/
theorem test_A11 : leaves (alu 0x88#8 0xFF#8 0x00#8 true) 0x00#8 0xB0#8 1#16 1 = true := by decide

/-- A18: borrow only. -/
theorem test_A18 : leaves (alu 0x90#8 0x3E#8 0x40#8 false) 0xFE#8 0x50#8 1#16 1 = true := by decide

/-- A20: the carry-in is ignored. -/
theorem test_A20 : leaves (alu 0x90#8 0x10#8 0x01#8 true) 0x0F#8 0x60#8 1#16 1 = true := by decide

/-- A24: v + c is not wrapped. -/
theorem test_A24 : leaves (alu 0x98#8 0x00#8 0xFF#8 true) 0x00#8 0xF0#8 1#16 1 = true := by decide

/-- A25: half-borrow from the carry-in. -/
theorem test_A25 : leaves (alu 0x98#8 0x10#8 0x0F#8 true) 0x00#8 0xE0#8 1#16 1 = true := by decide

/-- A31: result 0. -/
theorem test_A31 : leaves (alu 0xA0#8 0x5A#8 0xA5#8 false) 0x00#8 0xA0#8 1#16 1 = true := by decide

/-- A32: C cleared. -/
theorem test_A32 : leaves (alu 0xA0#8 0xFF#8 0xFF#8 true) 0xFF#8 0x20#8 1#16 1 = true := by decide

/-- A33: complement. -/
theorem test_A33 : leaves (alu 0xA8#8 0x5A#8 0xFF#8 false) 0xA5#8 0x00#8 1#16 1 = true := by decide

/-- A35: C cleared. -/
theorem test_A35 : leaves (alu 0xA8#8 0x0F#8 0xF0#8 true) 0xFF#8 0x00#8 1#16 1 = true := by decide

/-- A36: plain. -/
theorem test_A36 : leaves (alu 0xB0#8 0x5A#8 0x0F#8 false) 0x5F#8 0x00#8 1#16 1 = true := by decide

/-- A38: C cleared. -/
theorem test_A38 : leaves (alu 0xB0#8 0x80#8 0x01#8 true) 0x81#8 0x00#8 1#16 1 = true := by decide

/-- A39: A unchanged. -/
theorem test_A39 : leaves (alu 0xB8#8 0x3C#8 0x2F#8 false) 0x3C#8 0x60#8 1#16 1 = true := by decide

/-- A42: H and C. -/
theorem test_A42 : leaves (alu 0xB8#8 0x00#8 0xFF#8 false) 0x00#8 0x70#8 1#16 1 = true := by decide

theorem test_M1 : leaves (aluHL 0x86#8 0x01#8 0x0F#8 false) 0x10#8 0x20#8 1#16 2 = true := by decide

theorem test_M2 : leaves (aluHL 0x8E#8 0xFF#8 0x00#8 true) 0x00#8 0xB0#8 1#16 2 = true := by decide

theorem test_M3 : leaves (aluHL 0x96#8 0x10#8 0x01#8 false) 0x0F#8 0x60#8 1#16 2 = true := by decide

theorem test_M4 : leaves (aluHL 0x9E#8 0x00#8 0xFF#8 true) 0x00#8 0xF0#8 1#16 2 = true := by decide

theorem test_M5 : leaves (aluHL 0xA6#8 0xF0#8 0x0F#8 false) 0x00#8 0xA0#8 1#16 2 = true := by decide

theorem test_M6 : leaves (aluHL 0xAE#8 0xFF#8 0xFF#8 true) 0x00#8 0x80#8 1#16 2 = true := by decide

theorem test_M7 : leaves (aluHL 0xB6#8 0x00#8 0x00#8 true) 0x00#8 0x80#8 1#16 2 = true := by decide

theorem test_M8 : leaves (aluHL 0xBE#8 0x3C#8 0x3C#8 false) 0x3C#8 0xC0#8 1#16 2 = true := by decide

theorem test_AA3 : leaves (alu 0x87#8 0x81#8 0x00#8 true) 0x02#8 0x10#8 1#16 1 = true := by decide

theorem test_AA5 : leaves (alu 0x8F#8 0x81#8 0x00#8 true) 0x03#8 0x10#8 1#16 1 = true := by decide

theorem test_AA8 : leaves (alu 0x97#8 0x5A#8 0x00#8 true) 0x00#8 0xC0#8 1#16 1 = true := by decide

theorem test_AA11 : leaves (alu 0x9F#8 0x5A#8 0x00#8 true) 0xFF#8 0x70#8 1#16 1 = true := by decide

theorem test_AA13 : leaves (alu 0xA7#8 0x5A#8 0x00#8 true) 0x5A#8 0x20#8 1#16 1 = true := by decide

theorem test_AA14 : leaves (alu 0xAF#8 0x5A#8 0x00#8 true) 0x00#8 0x80#8 1#16 1 = true := by decide

theorem test_AA16 : leaves (alu 0xB7#8 0x5A#8 0x00#8 false) 0x5A#8 0x00#8 1#16 1 = true := by decide

theorem test_AA17 : leaves (alu 0xBF#8 0x5A#8 0x00#8 true) 0x5A#8 0xC0#8 1#16 1 = true := by decide

/-- The worked examples of 41_alu.md R122 (E), R123 (E), R124 (H), R125 (L) and R127 (C). -/
theorem test_worked_register_operands :
    leaves { alu 0x8B#8 0xE1#8 0 true with e := 0x0F#8 } 0xF1#8 0x20#8 1#16 1 = true ∧
    leaves { alu 0x93#8 0x3E#8 0 false with e := 0x3E#8 } 0x00#8 0xC0#8 1#16 1 = true ∧
    leaves { alu 0x9C#8 0x3B#8 0 true with h := 0x2A#8 } 0x10#8 0x40#8 1#16 1 = true ∧
    leaves { alu 0xA5#8 0x5A#8 0 false with l := 0x3F#8 } 0x1A#8 0x20#8 1#16 1 = true ∧
    leaves { alu 0xB1#8 0x5A#8 0 false with c := 0x0F#8 } 0x5F#8 0x00#8 1#16 1 = true := by decide

/-! ## The load family -/

/-- L1, L2, L4, and F kept. -/
theorem test_L1 : after (load 0#16 [0x01#8, 0x34#8, 0x12#8])
    (fun t => decide (t.b = 0x12#8 ∧ t.c = 0x34#8 ∧ t.f = 0xF0#8 ∧ t.pc = 3#16 ∧ t.cyc = 3)) = true := by decide

theorem test_L2 : after (load 0#16 [0x11#8, 0xCD#8, 0xAB#8])
    (fun t => decide (t.d = 0xAB#8 ∧ t.e = 0xCD#8 ∧ t.f = 0xF0#8 ∧ t.pc = 3#16 ∧ t.cyc = 3)) = true := by decide

theorem test_L4 : after (load 0#16 [0x31#8, 0xFE#8, 0xFF#8])
    (fun t => decide (t.sp = 0xFFFE#16 ∧ t.f = 0xF0#8 ∧ t.pc = 3#16 ∧ t.cyc = 3)) = true := by decide

/-- L5: the high byte is read from 0x0000. -/
theorem test_L5 : after (load 0xFFFE#16 [0x21#8, 0xCD#8, 0xAB#8])
    (fun t => decide (t.h = 0xAB#8 ∧ t.l = 0xCD#8 ∧ t.pc = 1#16 ∧ t.cyc = 3)) = true := by decide

theorem test_L7 : after { load 0#16 [0x02#8] with a := 0x77#8, b := 0xC1#8, c := 0x23#8 }
    (fun t => decide (t.mem.read 0xC123 = 0x77#8 ∧ t.b = 0xC1#8 ∧ t.c = 0x23#8 ∧ t.f = 0xF0#8 ∧ t.pc = 1#16 ∧ t.cyc = 2)) = true := by
  decide

/-- L8: storing 0x00 over 0x99. -/
theorem test_L8 : after { (load 0#16 [0x12#8]).writeBytes 0xD000#16 [0x99#8] with a := 0x00#8, d := 0xD0#8, e := 0x00#8 }
    (fun t => decide (t.mem = [(0, 0x12#8)] ∧ t.d = 0xD0#8 ∧ t.pc = 1#16 ∧ t.cyc = 2)) = true := by decide

/-- L10: the carry into H. -/
theorem test_L10 : after { load 0#16 [0x22#8] with a := 0x42#8, h := 0xC0#8, l := 0xFF#8 }
    (fun t => decide (t.mem.read 0xC0FF = 0x42#8 ∧ t.h = 0xC1#8 ∧ t.l = 0x00#8 ∧ t.f = 0xF0#8 ∧ t.cyc = 2)) = true := by decide

/-- L11: HL = 0xFFFF wraps to 0x0000. -/
theorem test_L11 : after { load 0#16 [0x22#8] with a := 0x42#8, h := 0xFF#8, l := 0xFF#8 }
    (fun t => decide (t.mem.read 0xFFFF = 0x42#8 ∧ t.h = 0x00#8 ∧ t.l = 0x00#8)) = true := by decide

/-- L12, S6: the pre-decrement address is stored to, and 0x8FFF is unchanged. -/
theorem test_L12 : after { load 0#16 [0x32#8] with a := 0x42#8, h := 0x90#8, l := 0x00#8 }
    (fun t => decide (t.mem.read 0x9000 = 0x42#8 ∧ t.mem.read 0x8FFF = 0x00#8 ∧ t.h = 0x8F#8 ∧ t.l = 0xFF#8 ∧ t.cyc = 2)) = true := by
  decide

/-- L21: the store overwrites the opcode just executed. -/
theorem test_L21 : after { load 0x0100#16 [0x32#8] with a := 0x00#8, h := 0x01#8, l := 0x00#8 }
    (fun t => decide (t.mem.read 0x0100 = 0x00#8 ∧ t.h = 0x00#8 ∧ t.l = 0xFF#8 ∧ t.pc = 0x0101#16)) = true := by decide

theorem test_L15 : after (load 0#16 [0x06#8, 0x42#8]) (fun t => decide (t.b = 0x42#8 ∧ t.pc = 2#16 ∧ t.cyc = 2)) = true := by decide

/-- L19: the immediate is read from 0x0000. -/
theorem test_L19 : after (load 0xFFFF#16 [0x06#8, 0x99#8]) (fun t => decide (t.b = 0x99#8 ∧ t.pc = 1#16)) = true := by decide

theorem test_L16 : after { load 0#16 [0x16#8, 0xFF#8] with e := 0x11#8 }
    (fun t => decide (t.d = 0xFF#8 ∧ t.e = 0x11#8 ∧ t.f = 0xF0#8 ∧ t.cyc = 2)) = true := by decide

theorem test_L17 : after { load 0#16 [0x26#8, 0xC0#8] with h := 0x12#8, l := 0x34#8 }
    (fun t => decide (t.h = 0xC0#8 ∧ t.l = 0x34#8 ∧ t.f = 0xF0#8 ∧ t.cyc = 2)) = true := by decide

theorem test_L18 : after { load 0#16 [0x36#8, 0x5A#8] with h := 0xC0#8, l := 0x00#8 }
    (fun t => decide (t.mem.read 0xC000 = 0x5A#8 ∧ t.h = 0xC0#8 ∧ t.l = 0x00#8 ∧ t.f = 0xF0#8 ∧ t.pc = 2#16 ∧ t.cyc = 2)) = true := by
  decide

/-! ## Sequencing, faults, reset, ports -/

/-- W1: PC wraps. -/
theorem test_W1 : leaves { alu 0x80#8 0x01#8 0x01#8 false with pc := 0xFFFF#16, mem := [(0xFFFF, 0x80#8)] } 0x02#8 0x00#8 0#16 1 = true := by
  decide

/-- W4, S7: the first step from reset with nothing placed fetches 0x00. -/
theorem test_W4 : step State.reset = .next { State.reset with fault := some (.decodeFailure 0x00#8 0x0000#16) } := by rfl

/-- D15: a step asked for after a fault. -/
theorem test_D15 : step { State.reset with fault := some (.decodeFailure 0x00#8 0x0000#16) } = .fault (.decodeFailure 0x00#8 0x0000#16) := by
  rfl

/-- S2: the AF pair masks its low nibble. -/
theorem test_S2 : (State.reset.writePair .af 0x12FF#16).readPair .af = 0x12F0#16 ∧ (State.reset.writePair .bc 0xBEEF#16).b = 0xBE#8 := by
  decide

/-- 20_memory.md R53, 40_step.md R109: the transactions of LD (HL),d8. -/
theorem test_report_order : (report { load 0#16 [0x36#8, 0x5A#8] with h := 0xC0#8, l := 0x00#8 }).accesses =
    [.fetch 0#16, .fetch 1#16, .write 0xC000#16 0x5A#8] := by decide

/-- Log 9: the execute interface with the latch already set completes a value and keeps the latch; a violation replaces what it holds. -/
theorem test_latched_execute_interface :
    (let s := { load 0#16 [] with fault := some (.decodeFailure 0xFF#8 0#16), a := 5#8 }
     applyInstruction (.load (.reg .b) (.reg .a)) s = .next { s with b := 5#8, pc := 1#16, cyc := 1 } ∧
     applyInstruction (.load .imm8 .imm8) s = .next { s with fault := some (.engineContractViolation (.load .imm8 .imm8)) }) :=
  ⟨rfl, rfl⟩

/-! ## Witnesses: every statement with hypotheses has states that meet them -/

/-- A running state with ADD A,B at PC and a carry that changes the flags. -/
def running : State := alu 0x80#8 0xFF#8 0x01#8 false

/-- A running state with an undefined opcode at PC. -/
def undefinedAtPc : State := { State.reset with mem := [(0, 0xFF#8)] }

theorem witness_UndefinedOpcodesFail :
    decode 0x10#8 = .failure 0x10#8 ∧ decode 0x17#8 = .failure 0x17#8 ∧ decode 0x7F#8 = .failure 0x7F#8 ∧ decode 0xC0#8 = .failure 0xC0#8 ∧
    decode 0x80#8 = .instruction .addAB ∧ decode 0xBF#8 = .instruction .cpA ∧ decode 0x36#8 = .instruction .ldMemHLd8 := by decide

theorem witness_EncodedInstructionIsFetchedWithItsImmediate :
    (encode .ldHd8 0xC0#16).length = 2 ∧ (encode .ldSPd16 0xFFFE#16).length = 3 := by decide

theorem witness_StepRunsTheDecodedInstruction :
    running.fault = none ∧ decode (running.mem.read running.pc.toNat) = .instruction .addAB := by decide

/-- The two clauses at the two ends of the address space: ADD A,B at 0x0000, an undefined opcode at 0xFFFF. -/
theorem witness_DriverStepsAtItsProgramCounter :
    running.fault = none ∧ decode (running.mem.read (0x0000#16).toNat) = .instruction .addAB ∧
    (running.mem.read (0xFFFF#16).toNat).toNat = 0x00 ∧
    fetchAndExecute running 0xFFFF#16 = .next { running with pc := 0xFFFF#16, fault := some (.decodeFailure 0x00#8 0xFFFF#16) } :=
  ⟨by decide, by decide, by decide, rfl⟩

theorem witness_UndefinedOpcodeTakesDecodeFailure :
    undefinedAtPc.fault = none ∧ 0xC0 ≤ (undefinedAtPc.mem.read undefinedAtPc.pc.toNat).toNat := by decide

theorem witness_LatchedBlockTakesNoStep :
    (takeFault (.engineContractViolation (.load .imm8 .imm8)) running).fault = some (.engineContractViolation (.load .imm8 .imm8)) := rfl

theorem witness_StepRaisesOnlyDecodeFailures :
    (∃ t, step running = .next t ∧ t.fault = none) ∧ ∃ t, step undefinedAtPc = .next t ∧ t.fault = some (.decodeFailure 0xFF#8 0#16) :=
  ⟨⟨_, rfl, rfl⟩, _, rfl, rfl⟩

theorem witness_SentinelEndsTheRun :
    undefinedAtPc.fault = none ∧ undefinedAtPc.mem.read undefinedAtPc.pc.toNat = 0xFF#8 := by decide

theorem witness_AccumulatorAsItsOwnOperand :
    running.f.getLsbD 4 = false ∧ (alu 0x9F#8 0 0 true).f.getLsbD 4 = true := by decide

theorem witness_ArithmeticFrame :
    (∃ u, exec (.ofArith .add .b) running = .next u ∧ u.a ≠ running.a) ∧ ∃ u, exec (.ofArith .compare .b) running = .next u ∧ u.f ≠ running.f :=
  ⟨⟨_, rfl, by decide⟩, _, rfl, by decide⟩

theorem witness_RegisterLoadFrame :
    [Instr.ldBCd16, .ldDEd16, .ldHLd16, .ldSPd16, .ldBd8, .ldDd8, .ldHd8].all
      (fun i => match exec i running with | .next t => decide (t.mem = running.mem) | .fault _ => false | .refused _ => false) = true := by
  decide

theorem witness_StoreFrame :
    [Instr.ldMemBCA, .ldMemDEA, .ldMemHLIncA, .ldMemHLDecA, .ldMemHLd8].all
      (fun i => match exec i { running with h := 0x80#8, b := 0x80#8, d := 0x80#8, mem := [(0, 0x02#8), (1, 0xFF#8)] } with
        | .next t => decide (t.mem.read 0x8000 = 0xFF#8) | .fault _ => false | .refused _ => false) = true := by
  decide

/-- Each register is changed by an instruction its row names. -/
theorem witness_RegistersChangeOnlyByTheirWriters :
    let s := { load 0#16 [0x01#8, 0x34#8, 0x12#8] with a := 0x77#8, h := 0xC0#8, l := 0xFF#8, f := 0x00#8 }
    (∃ t, exec .subA s = .next t ∧ t.a ≠ s.a ∧ t.f ≠ s.f) ∧ (∃ t, exec .ldBCd16 s = .next t ∧ t.b ≠ s.b ∧ t.c ≠ s.c) ∧
    (∃ t, exec .ldDEd16 s = .next t ∧ t.d ≠ s.d ∧ t.e ≠ s.e) ∧
    (∃ t, exec .ldMemHLIncA s = .next t ∧ t.h ≠ s.h ∧ t.l ≠ s.l ∧ t.mem ≠ s.mem) ∧ ∃ t, exec .ldSPd16 s = .next t ∧ t.sp ≠ s.sp := by
  refine ⟨⟨_, rfl, ?_⟩, ⟨_, rfl, ?_⟩, ⟨_, rfl, ?_⟩, ⟨_, rfl, ?_⟩, _, rfl, ?_⟩ <;> decide

theorem witness_OnlyAdcAndSbcReadFlags :
    (∀ t, Instr.addAB ≠ .ofArith .addCarry t ∧ Instr.addAB ≠ .ofArith .subCarry t) ∧
    ∀ t, Instr.ldMemHLIncA ≠ .ofArith .addCarry t ∧ Instr.ldMemHLIncA ≠ .ofArith .subCarry t := by
  constructor <;> intro t <;> cases t <;> decide

/-- A memory that differs from the running state's only where ADD A,B does not read. -/
theorem witness_StepReadsOnlyTheBytesItAccesses :
    running.fault = none ∧ (report running).accesses = [.fetch 0#16] ∧
    Memory.read [(0, 0x80#8), (5, 0x55#8)] 0 = running.mem.read 0 ∧ ([(0, 0x80#8), (5, 0x55#8)] : Memory) ≠ running.mem := by decide

theorem witness_StepWritesExactlyTheBytesItAccesses :
    ∃ t, step { load 0#16 [0x22#8] with a := 0x42#8, h := 0xC0#8 } = .next t ∧
      (report { load 0#16 [0x22#8] with a := 0x42#8, h := 0xC0#8 }).accesses = [.fetch 0#16, .write 0xC000#16 0x42#8] :=
  ⟨_, rfl, by decide⟩

theorem witness_ReportAgreesWithTheStep : (∃ t, step running = .next t) ∧ ∃ t, step undefinedAtPc = .next t := ⟨⟨_, rfl⟩, _, rfl⟩

/-- 20_memory.md R53, R56: LD rr,d16 at 0xFFFF fetches across the wrap; an (HL) operand is read after the opcode; an undefined opcode
makes one read. -/
theorem test_report_rows :
    (report { load 0xFFFF#16 [0x21#8] with pc := 0xFFFF#16 }).accesses = [.fetch 0xFFFF#16, .fetch 0#16, .fetch 1#16] ∧
    (report { load 0#16 [0xBE#8] with h := 0xC0#8, l := 0x01#8 }).accesses = [.fetch 0#16, .read 0xC001#16] ∧
    (report undefinedAtPc).accesses = [.fetch 0#16] := by decide

/-- HL, BC and DE at the next instruction's address, under each of the four stores of A; and LD (HL),d8 with HL there. -/
theorem witness_StoreIsSeenByTheNextFetch :
    [0x02#8, 0x12#8, 0x22#8, 0x32#8].all (fun opcode =>
      let s := { load 0#16 [opcode] with a := 0xAF#8, c := 1#8, e := 1#8, l := 1#8 }
      decide (s.readPair .bc = s.pc + 1 ∧ s.readPair .de = s.pc + 1 ∧ s.readPair .hl = s.pc + 1 ∧ s.fault = none ∧
        s.mem.read s.pc.toNat = opcode) && after s (fun t => decide (t.fetchOpcode = 0xAF#8))) = true ∧
    (let s := { load 0#16 [0x36#8, 0xAF#8] with l := 2#8 }
     s.fault = none ∧ s.mem.read s.pc.toNat = 0x36#8 ∧ s.readPair .hl = s.pc + 2 ∧
       after s (fun t => decide (t.fetchOpcode = 0xAF#8)) = true) := by decide

/-- L20. -/
theorem witness_StoreOverItsOwnImmediateChangesNothing :
    (load 0#16 [0x36#8, 0x5A#8]).mem.wf = true ∧
    { load 0#16 [0x36#8, 0x5A#8] with l := 1#8 }.readPair .hl = { load 0#16 [0x36#8, 0x5A#8] with l := 1#8 }.pc + 1 := by decide

theorem witness_EngineAcceptsExactlyTheDefinedSet :
    (∃ r, execute (.load (.reg .d) .imm8) running = .done r) ∧ execute (.load (.reg .e) .imm8) running = .violation (.load (.reg .e) .imm8) :=
  ⟨⟨_, rfl⟩, rfl⟩

theorem witness_EqualMemoriesAreEqualData :
    Memory.wf [(0, 0x80#8), (0xFFFF, 0x01#8)] = true ∧ Memory.wf [] = true ∧ Memory.wf [(0x10000, 0x01#8)] = false ∧
    Memory.wf [(1, 0x00#8)] = false ∧ Memory.wf [(2, 0x01#8), (1, 0x01#8)] = false := by decide

theorem witness_ResetAndLaunchStatesMeetTheInvariant : undefinedAtPc.mem.wf = true ∧ running.Launch := by decide

theorem witness_StepKeepsTheInvariant :
    running.Inv ∧ undefinedAtPc.Inv ∧ (∃ t, step running = .next t) ∧ ∃ t, step undefinedAtPc = .next t :=
  ⟨by decide, by decide, ⟨_, rfl⟩, _, rfl⟩

theorem witness_ApplyingAnyInstructionKeepsTheInvariant :
    running.Inv ∧ running.fault = none ∧ (∃ t, applyInstruction (.load (.reg .c) (.reg .b)) running = .next t ∧ t.fault = none) ∧
    ∃ t, applyInstruction (.load .imm8 .imm8) running = .next t ∧ t.fault ≠ none :=
  ⟨by decide, rfl, ⟨_, rfl, rfl⟩, _, rfl, by decide⟩

theorem witness_RunsKeepTheInvariantAndCountCycles : running.Inv ∧ ∃ t, core.run 1 running = .next t := ⟨by decide, _, rfl⟩

end Sys2Proof.Tests
end

section
/-! PROOFS. The statements about the state: the register file and its flags, who writes and who reads each part of the state, reset, and
the invariant that every step keeps. -/

namespace Sys2Proof.Machine

/-! ## The invariant -/

/-- A running block has nothing in its latch that could be incoherent. -/
theorem latchCoherent_of_running {s : State} (h : s.fault = none) : s.latchCoherent = true := by
  simp [State.latchCoherent, h]

/-- Taking the DecodeFailure of the opcode at PC leaves a coherent latch (60_exceptions.md R181, R183). -/
theorem takeFault_decodeFailure_latchCoherent {s : State} (h : decode s.fetchOpcode = .failure s.fetchOpcode) :
    (takeFault (.decodeFailure s.fetchOpcode s.pc) s).latchCoherent = true := by
  have hfetch : (takeFault (.decodeFailure s.fetchOpcode s.pc) s).fetchOpcode = s.fetchOpcode := rfl
  simp [State.latchCoherent, hfetch, h]

/-- A load that is executed is a value written to its destination. -/
theorem execute_load_done {dst src : LoadTarget} {s : State} {r : Executed} (h : execute (.load dst src) s = .done r) :
    ∃ v, s.loadSource src = some v ∧ s.loadDestination dst v = some r.state := by
  simp only [execute, executeLoad] at h
  split at h
  · cases hv : s.loadSource src with
    | none => simp [hv] at h
    | some v =>
      cases ht : s.loadDestination dst v with
      | none => simp [hv, ht] at h
      | some t =>
        simp only [hv, ht, EngineResult.done.injEq] at h
        exact ⟨v, rfl, by rw [ht, ← h]⟩
  · cases h

/-- No destination of a load is F (42_load.md R150: no load writes a flag). -/
theorem loadDestination_keeps_f {dst : LoadTarget} {v : LoadValue} {s t : State} (h : s.loadDestination dst v = some t) :
    t.f = s.f := by
  revert h
  fun_cases State.loadDestination s dst v <;> intro h <;> cases h
  case case1 r v => exact writeReg_keeps_f s r v
  all_goals rfl

/-- A load's destination writes memory, if at all, at a 16-bit address. -/
theorem loadDestination_keeps_wf {dst : LoadTarget} {v : LoadValue} {s t : State} (h : s.loadDestination dst v = some t)
    (hm : s.mem.wf = true) : t.mem.wf = true := by
  revert h
  fun_cases State.loadDestination s dst v <;> intro h <;> cases h
  case case1 r v => rwa [writeReg_keeps_mem]
  case case6 v | case7 v | case8 v | case9 v | case10 v => exact writeByte_keeps_wf s _ v hm
  all_goals exact hm

/-- Whatever `execute` runs leaves F's low nibble zero: an arithmetic value packs it, a load keeps F (10_state.md R26). -/
theorem execute_keeps_flagsMasked {ins : Instruction} {s : State} {r : Executed} (h : execute ins s = .done r)
    (hs : s.FlagsMasked) : r.state.FlagsMasked := by
  cases ins with
  | arith op t =>
    cases h
    rw [executeArith_eq]
    exact AluResult.flags_low_zero _
  | load dst src =>
    obtain ⟨v, -, hd⟩ := execute_load_done h
    rwa [State.FlagsMasked, loadDestination_keeps_f hd]

/-- Whatever `execute` runs leaves memory in its canonical form. -/
theorem execute_keeps_wf {ins : Instruction} {s : State} {r : Executed} (h : execute ins s = .done r)
    (hm : s.mem.wf = true) : r.state.mem.wf = true := by
  cases ins with
  | arith op t =>
    cases h
    rwa [executeArith_eq]
  | load dst src =>
    obtain ⟨v, -, hd⟩ := execute_load_done h
    exact loadDestination_keeps_wf hd hm

/-- A running block that has executed an instruction and retired it meets the invariant. -/
theorem retire_execute_inv {ins : Instruction} {s : State} {r : Executed} (h : execute ins s = .done r) (hs : s.Inv)
    (hfault : (retire r).fault = none) : (retire r).Inv := by
  obtain ⟨hflags, hmem, -⟩ := hs
  exact ⟨execute_keeps_flagsMasked h hflags, execute_keeps_wf h hmem, latchCoherent_of_running hfault⟩

/-- Settles O53: the step runs an instruction, which keeps F and memory in form and the latch clear, or it latches the failure that
the opcode at PC is. -/
theorem stepKeepsTheInvariant : Obligations.StepKeepsTheInvariant := by
  intro s t hs hstep
  obtain ⟨hrun, ⟨i, -, hexec⟩ | ⟨hdecode, rfl⟩⟩ := step_next_cases hstep
  · obtain ⟨r, hr, hcomplete⟩ := exec_done i s
    obtain ⟨u, hu, hfault⟩ := exec_next i s
    obtain rfl : t = u := by simpa [hexec] using hu
    obtain rfl : t = retire r := by simpa [hcomplete] using hexec
    exact retire_execute_inv hr hs (hfault.trans hrun)
  · obtain ⟨hflags, hmem, -⟩ := hs
    exact ⟨hflags, hmem, takeFault_decodeFailure_latchCoherent hdecode⟩

/-! ## Who writes which register -/

/-- Of the arithmetic rows only CP's opcodes are 0xB8 or above (30_encoding.md R82). -/
theorem encodeOpcode_ofArith_lt_cp {op : AluOp} (h : op ≠ .compare) (t : ArithmeticTarget) :
    (encodeOpcode (.ofArith op t)).toNat < 0xB8 := by
  cases op
  case compare => exact absurd rfl h
  all_goals cases t <;> decide

/-- Settles O33: an arithmetic instruction writes A (CP apart) and F; each load's effect is read off its form. -/
theorem registersChangeOnlyByTheirWriters : Obligations.RegistersChangeOnlyByTheirWriters := by
  intro i s t h
  induction i using instr_cases with
  | arith op tg =>
    have hrow := encodeOpcode_ofArith op tg
    obtain rfl : t = retire (executeArith op tg s) := by simpa [exec_ofArith] using h
    rw [executeArith_eq]
    have ha : (if op = .compare then s.a else (aluOf op s.a (s.operand tg) (s.readFlag .c)).result) ≠ s.a → op ≠ .compare :=
      fun hne hop => hne (if_pos hop)
    simp only [retire_a, retire_b, retire_c, retire_d, retire_e, retire_h, retire_l, retire_f, retire_sp, retire_mem]
    simpa [Spec.IsArithmetic, hrow] using fun hne => encodeOpcode_ofArith_lt_cp (ha hne) tg
  | ldBCd16 | ldDEd16 | ldHLd16 | ldSPd16 =>
    cases h
    simp [executeLoadWide]
  | ldMemBCA | ldMemDEA =>
    cases h
    simp [executeStoreA]
  | ldMemHLIncA =>
    cases h
    simp [executeStoreAInc]
  | ldMemHLDecA =>
    cases h
    simp [executeStoreADec]
  | ldBd8 | ldDd8 | ldHd8 =>
    cases h
    simp [executeLoadImm8]
  | ldMemHLd8 =>
    cases h
    simp [executeStoreImm8]

/-! ## Who reads a flag, SP or CYC -/

/-- An arithmetic operand is a register other than F or a byte of memory (40_step.md R103), so it depends on neither F, SP nor CYC. -/
theorem operand_of_f (s : State) (f' : Byte) (t : ArithmeticTarget) : { s with f := f' }.operand t = s.operand t := by
  cases t <;> rfl

theorem operand_of_sp_cyc (s : State) (sp' : Word) (cyc' : Nat) (t : ArithmeticTarget) :
    { s with sp := sp', cyc := cyc' }.operand t = s.operand t := by
  cases t <;> rfl

/-- Only ADC and SBC use the incoming carry (10_state.md R29). -/
theorem aluOf_ignores_carry {op : AluOp} (hadc : op ≠ .addCarry) (hsbc : op ≠ .subCarry) (a v : Byte) (c c' : Bool) :
    aluOf op a v c = aluOf op a v c' := by
  cases op
  case addCarry => exact absurd rfl hadc
  case subCarry => exact absurd rfl hsbc
  all_goals rfl

/-- Settles O34: an arithmetic operation other than ADC and SBC computes one result whatever the carry; a load does not mention F. -/
theorem onlyAdcAndSbcReadFlags : Obligations.OnlyAdcAndSbcReadFlags := by
  intro i s f' hi
  induction i using instr_cases with
  | arith op tg =>
    have hadc : op ≠ .addCarry := fun h => (hi tg).1 (by rw [h])
    have hsbc : op ≠ .subCarry := fun h => (hi tg).2 (by rw [h])
    have hsame := aluOf_ignores_carry hadc hsbc s.a (s.operand tg) ({ s with f := f' }.readFlag .c) (s.readFlag .c)
    refine ⟨_, _, exec_ofArith op tg s, exec_ofArith op tg _, ?_, fun _ => ?_, fun hload => ?_⟩
    · simp only [executeArith_eq, operand_of_f, hsame, retire]
    · simp only [executeArith_eq, operand_of_f, hsame, retire]
    · exact absurd (encodeOpcode_ofArith op tg) hload
  | _ => exact ⟨_, _, rfl, rfl, rfl, fun harith => absurd harith (by simp [Spec.IsArithmetic, encodeOpcode]), fun _ => ⟨rfl, rfl⟩⟩

/-- Settles O35: the operand and the incoming carry of an arithmetic instruction are the same in both runs; no load's value or address
mentions SP or CYC. -/
theorem noInstructionReadsSpOrCyc : Obligations.NoInstructionReadsSpOrCyc := by
  intro i s sp' cyc'
  induction i using instr_cases with
  | arith op tg =>
    have hcarry : { s with sp := sp', cyc := cyc' }.readFlag .c = s.readFlag .c := rfl
    refine ⟨_, _, exec_ofArith op tg s, exec_ofArith op tg _, ?_⟩
    simp only [executeArith_eq, operand_of_sp_cyc, hcarry, retire]
  | _ => exact ⟨_, _, rfl, rfl, rfl⟩

/-! ## The register file -/

/-- Settles O44: a pair's word is its two bytes joined, and a word is its own bytes joined. -/
theorem pairsAreViews : Obligations.PairsAreViews := by
  intro s w
  refine ⟨⟨readPair_bc_toNat s, readPair_de_toNat s, readPair_hl_toNat s⟩, ?_, ?_, ?_, ?_⟩
  · rw [writePair_bc, highByte_eq, lowByte_eq]
  · rw [writePair_de, highByte_eq, lowByte_eq]
  · rw [writePair_hl, highByte_eq, lowByte_eq]
  · intro p hp
    cases p
    case af => exact absurd rfl hp
    all_goals exact joinBytes_highByte_lowByte w

/-- Masking the low byte's low nibble masks the word's (10_state.md R24). -/
theorem joinBytes_mask_low (hi lo : Byte) : joinBytes hi (lo &&& 0xF0#8) = joinBytes hi lo &&& 0xFFF0#16 := by
  have hmask : (0xFFF0#16 : Word) = 0xFF#8 ++ 0xF0#8 := rfl
  have hhi : hi &&& 0xFF#8 = hi := BitVec.and_allOnes
  rw [joinBytes, joinBytes, hmask, BitVec.and_append, hhi]

/-- Settles O45: AF is A and F joined, and its write goes through the mask of F. -/
theorem accumulatorFlagsPairMasksItsLowNibble : Obligations.AccumulatorFlagsPairMasksItsLowNibble := by
  intro s w
  refine ⟨joinBytes_toNat s.a s.f, ?_, ?_⟩
  · rw [writePair_af, highByte_eq, lowByte_eq]
  · calc (s.writePair .af w).readPair .af
        = joinBytes (highByte w) (lowByte w &&& 0xF0#8) := rfl
      _ = w &&& 0xFFF0#16 := by rw [joinBytes_mask_low, joinBytes_highByte_lowByte]

/-- The packed byte is the sum of the set flags' weights (10_state.md R25). -/
theorem packFlags_eq_flagsByte (z n h c : Bool) : packFlags z n h c = Spec.flagsByte z n h c := by
  revert z n h c; decide

/-- Packing the four flags of a byte gives the byte with its low nibble zero (10_state.md R26). -/
theorem packFlags_of_bits (b : Byte) :
    packFlags (b.getLsbD 7) (b.getLsbD 6) (b.getLsbD 5) (b.getLsbD 4) = b &&& 0xF0#8 := by
  revert b; decide

/-- The flags stand at four different bits (10_state.md R25). -/
theorem flagBit_inj (k k' : Flag) : flagBit k' = flagBit k ↔ k' = k := by
  cases k <;> cases k' <;> decide

/-- A flag's bit is outside the unused nibble, so the mask of F keeps it (10_state.md R26). -/
theorem flagBit_mask (k : Flag) : (0xF0#8).getLsbD (flagBit k) = true := by
  cases k <;> rfl

theorem flagBit_lt (k : Flag) : flagBit k < 8 := by
  cases k <;> decide

/-- The bits of a byte that holds one bit at most. -/
theorem getLsbD_bitAt {pos i : Nat} (hi : i < 8) (b : Bool) : (bitAt pos b).getLsbD i = (b && decide (i = pos)) := by
  cases b with
  | false => simp [bitAt]
  | true =>
    simp only [bitAt, if_true, BitVec.getLsbD_shiftLeft, BitVec.getLsbD_one]
    grind

/-- What `writeFlag` leaves in each flag (10_state.md R27). -/
theorem readFlag_writeFlag (s : State) (k k' : Flag) (b : Bool) :
    (s.writeFlag k b).readFlag k' = if k' = k then b else s.readFlag k' := by
  have hone : 1#8 <<< flagBit k = bitAt (flagBit k) true := rfl
  simp only [State.readFlag, State.writeFlag, writeF_f, hone, BitVec.getLsbD_and, BitVec.getLsbD_or, BitVec.getLsbD_not,
    getLsbD_bitAt (flagBit_lt k'), flagBit_mask, flagBit_lt, flagBit_inj]
  by_cases hk : k' = k <;> simp [hk]

/-- Settles O46: `setFlags` packs, and `writeFlag` is said flag by flag in `readFlag_writeFlag`. -/
theorem flagAccessors : Obligations.FlagAccessors := by
  intro s
  refine ⟨⟨rfl, rfl, rfl, rfl⟩, fun z n h c => ?_, fun k b => ⟨?_, fun k' hk => ?_, masked_low_zero _, rfl⟩⟩
  · rw [← packFlags_eq_flagsByte, State.setFlags, State.writeF, packFlags_masked]
  · rw [readFlag_writeFlag, if_pos rfl]
  · rw [readFlag_writeFlag, if_neg hk]

/-- Settles O47, by `packFlags_of_bits`. -/
theorem flagPackingRoundTrip : Obligations.FlagPackingRoundTrip := by
  intro s b
  exact ⟨writeF_f s b, by rw [setFlags_f, packFlags_of_bits]⟩

/-- What a register reads after a write to it or to another (10_state.md R21). -/
theorem readReg_writeReg (s : State) (r q : Reg8) (v : Byte) :
    (s.writeReg r v).readReg q = if q = r then v else s.readReg q := by
  cases r <;> cases q <;> rfl

/-- Settles O48, by `readReg_writeReg`. -/
theorem generalRegistersAreIndependentCells : Obligations.GeneralRegistersAreIndependentCells := by
  intro s r v
  refine ⟨?_, fun q hq => ?_, writeReg_keeps_f s r v, writeReg_keeps_sp s r v, writeReg_keeps_pc s r v, writeReg_keeps_mem s r v⟩
  · rw [readReg_writeReg, if_pos rfl]
  · rw [readReg_writeReg, if_neg hq]

/-! ## Reset -/

/-- Every general register reads zero after reset (10_state.md R34). -/
theorem resetWith_readReg (mem0 : Memory) (r : Reg8) : (State.resetWith mem0).readReg r = 0x00#8 := by
  cases r <;> rfl

/-- Settles O51: reset is defined field by field. -/
theorem resetState : Obligations.ResetState :=
  ⟨fun mem0 => ⟨resetWith_readReg mem0, rfl, rfl, rfl, rfl, rfl, resetWith_mem mem0⟩, rfl, rfl⟩

end Sys2Proof.Machine
end

section
/-! PROOFS. The statements about memory: what any sequence of writes leaves (20_memory.md R57), what a step reads and writes through its
port (R53), and a store to a byte of the instruction stream (R61). -/

namespace Sys2Proof.Machine

/-! ## Sequences of writes -/

theorem afterWrites_concat (mem0 : Memory) (writes : List (Word × Byte)) (w : Word × Byte) :
    Spec.afterWrites mem0 (writes ++ [w]) = (Spec.afterWrites mem0 writes).write w.1.toNat w.2 :=
  List.foldl_concat _ _ _ _

/-- Settles O49, by induction on the writes from the newest: it is the byte read at its own address and leaves any other to the older
writes. -/
theorem readReturnsTheLastByteWritten : Obligations.ReadReturnsTheLastByteWritten := by
  intro mem0 writes x
  induction writes using List.reverseRecOn with
  | nil => rfl
  | append_singleton older w ih =>
    rw [afterWrites_concat, List.reverse_concat]
    by_cases hw : w.1 = x
    · rw [List.find?_cons_of_pos (by simpa using hw), ← hw, read_write_same]
    · have hne : x.toNat ≠ w.1.toNat := fun h => hw (BitVec.eq_of_toNat_eq h.symm)
      rw [List.find?_cons_of_neg (by simpa using hw), read_write_other _ _ hne, ih]

theorem afterWrites_keeps_wf (mem0 : Memory) (writes : List (Word × Byte)) (hm : mem0.wf = true) :
    (Spec.afterWrites mem0 writes).wf = true := by
  induction writes generalizing mem0 with
  | nil => exact hm
  | cons w writes ih => exact ih _ (write_keeps_wf mem0 _ w.2 hm (word_in_addressSpace w.1))

/-- A canonical list reads as unlisted outside the address space. -/
theorem read_outside {lo x : Nat} (m : Memory) (hm : Memory.canonicalFrom lo m = true) (hx : Config.addressSpace ≤ x) :
    m.read x = Memory.unlistedByte := by
  induction m generalizing lo with
  | nil => rfl
  | cons cell m ih =>
    obtain ⟨k, v⟩ := cell
    obtain ⟨-, hk, -, hrest⟩ := (canonicalFrom_cons _ _ _ _).1 hm
    rw [Memory.read, if_neg (by omega)]
    exact ih hrest

/-- Canonical memories that read alike at every 16-bit address are the same data: outside the space both read as unlisted. -/
theorem wf_ext {m m' : Memory} (hm : m.wf = true) (hm' : m'.wf = true) (hread : ∀ x : Word, m.read x.toNat = m'.read x.toNat) :
    m = m' := by
  refine canonicalFrom_ext m m' hm hm' fun x => ?_
  by_cases hx : x < Config.addressSpace
  · have hword : (BitVec.ofNat 16 x).toNat = x := Nat.mod_eq_of_lt hx
    rw [← hword]
    exact hread _
  · rw [read_outside m hm (Nat.le_of_not_lt hx), read_outside m' hm' (Nat.le_of_not_lt hx)]

/-- Settles O50: every write keeps the canonical form, and canonical memories are determined by their reads. -/
theorem equalMemoriesAreEqualData : Obligations.EqualMemoriesAreEqualData := by
  intro mem0 mem1 writes writes' hm0 hm1
  have hwf := afterWrites_keeps_wf mem0 writes hm0
  exact ⟨hwf, wf_ext hwf (afterWrites_keeps_wf mem1 writes' hm1)⟩

/-! ## The bytes a step reads -/

/-- The memory `m` reads as the state's own at every address the transactions read. -/
def ReadsAlike (s : State) (m : Memory) (accesses : List Access) : Prop :=
  ∀ access ∈ accesses, ∀ a, Spec.readAddress access = some a → m.read a.toNat = s.mem.read a.toNat

theorem readsAlike_append {s : State} {m : Memory} {xs ys : List Access} :
    ReadsAlike s m (xs ++ ys) ↔ ReadsAlike s m xs ∧ ReadsAlike s m ys :=
  List.forall_mem_append

theorem ReadsAlike.fetch {s : State} {m : Memory} {accesses : List Access} {a : Word} (h : ReadsAlike s m accesses)
    (ha : .fetch a ∈ accesses) : { s with mem := m }.readByte a = s.readByte a :=
  h _ ha a rfl

theorem ReadsAlike.read {s : State} {m : Memory} {accesses : List Access} {a : Word} (h : ReadsAlike s m accesses)
    (ha : .read a ∈ accesses) : { s with mem := m }.readByte a = s.readByte a :=
  h _ ha a rfl

/-- The fetches of an instruction of length `n` reach each of its bytes (40_step.md R109). -/
theorem fetch_mem_fetchesFrom (pc : Word) {k n : Nat} (hk : k < n) : .fetch (pc + BitVec.ofNat 16 k) ∈ fetchesFrom pc n := by
  induction n generalizing pc k with
  | zero => exact absurd hk (Nat.not_lt_zero k)
  | succ n ih =>
    cases k with
    | zero => simp [fetchesFrom]
    | succ k =>
      have hnext : pc + BitVec.ofNat 16 (k + 1) = pc + 1 + BitVec.ofNat 16 k := by
        rw [Nat.add_comm, BitVec.ofNat_add, ← BitVec.add_assoc]
        rfl
      rw [hnext]
      exact .tail _ (ih _ (Nat.lt_of_succ_lt_succ hk))

theorem fetch_pc_mem_fetchesFrom (pc : Word) {n : Nat} (hn : 0 < n) : .fetch pc ∈ fetchesFrom pc n := by
  simpa using fetch_mem_fetchesFrom pc hn

theorem ReadsAlike.imm8 {s : State} {m : Memory} {n : Nat} (h : ReadsAlike s m (fetchesFrom s.pc n)) (hn : 1 < n) :
    { s with mem := m }.imm8 = s.imm8 :=
  h.fetch (fetch_mem_fetchesFrom s.pc hn)

theorem ReadsAlike.imm16 {s : State} {m : Memory} {n : Nat} (h : ReadsAlike s m (fetchesFrom s.pc n)) (hn : 2 < n) :
    { s with mem := m }.imm16 = s.imm16 :=
  congrArg₂ joinBytes (h.fetch (fetch_mem_fetchesFrom s.pc hn)) (h.imm8 (Nat.lt_of_succ_lt hn))

/-- An arithmetic operand reads a byte of memory only through the data access of (HL) (20_memory.md R53). -/
theorem ReadsAlike.operand {s : State} {m : Memory} {op : AluOp} {t : ArithmeticTarget}
    (h : ReadsAlike s m (dataAccesses (.arith op t) s)) : { s with mem := m }.operand t = s.operand t := by
  cases t
  case indirectHL => exact h.read (List.mem_singleton_self _)
  all_goals rfl

/-- LD rr,d16 and LD r,d8 read memory only for their immediate. -/
theorem executeLoadWide_of_imm16 {s : State} {m : Memory} (w : WideReg) (h : { s with mem := m }.imm16 = s.imm16) :
    executeLoadWide w { s with mem := m } =
      { executeLoadWide w s with state := { (executeLoadWide w s).state with mem := m } } := by
  cases w <;> simp [executeLoadWide, h]

theorem executeLoadImm8_of_imm8 {s : State} {m : Memory} (r : Reg8) (h : { s with mem := m }.imm8 = s.imm8) :
    executeLoadImm8 r { s with mem := m } =
      { executeLoadImm8 r s with state := { (executeLoadImm8 r s).state with mem := m } } := by
  cases r <;> simp [executeLoadImm8, h]

/-- With any memory that reads alike on what the instruction's transactions read, the instruction makes the same data access and returns
the same, memory apart. -/
theorem execute_reads_only_accesses (i : Instr) {s : State} {m : Memory} {r : Executed}
    (hr : execute i.toInstruction s = .done r) (hfetch : ReadsAlike s m (fetchesFrom s.pc r.bytesConsumed))
    (hdata : ReadsAlike s m (dataAccesses i.toInstruction s)) :
    dataAccesses i.toInstruction { s with mem := m } = dataAccesses i.toInstruction s ∧
    ∃ m', execute i.toInstruction { s with mem := m } = .done { r with state := { r.state with mem := m' } } := by
  induction i using instr_cases with
  | arith op tg =>
    rw [toInstruction_ofArith] at *
    cases hr
    have hcarry : { s with mem := m }.readFlag .c = s.readFlag .c := rfl
    refine ⟨by cases tg <;> rfl, m, ?_⟩
    simp only [execute_arith, executeArith_eq, hdata.operand, hcarry]
  | ldBCd16 | ldDEd16 | ldHLd16 | ldSPd16 =>
    cases hr
    have himm := ReadsAlike.imm16 (n := 3) hfetch (by decide)
    exact ⟨rfl, m, congrArg EngineResult.done (executeLoadWide_of_imm16 _ himm)⟩
  | ldMemBCA | ldMemDEA | ldMemHLIncA | ldMemHLDecA =>
    cases hr
    exact ⟨rfl, _, rfl⟩
  | ldBd8 | ldDd8 | ldHd8 =>
    cases hr
    have himm := ReadsAlike.imm8 (n := 2) hfetch (by decide)
    exact ⟨rfl, m, congrArg EngineResult.done (executeLoadImm8_of_imm8 _ himm)⟩
  | ldMemHLd8 =>
    cases hr
    have himm := ReadsAlike.imm8 (n := 2) hfetch (by decide)
    exact ⟨congrArg (fun v => [Access.write (s.readPair .hl) v]) himm, _, rfl⟩

/-- Every instruction consumes its opcode at least (40_step.md R106). -/
theorem execute_consumes_opcode (i : Instr) {s : State} {r : Executed} (hr : execute i.toInstruction s = .done r) :
    0 < r.bytesConsumed := by
  induction i using instr_cases with
  | arith op tg =>
    rw [toInstruction_ofArith, execute_arith, executeArith_eq] at hr
    cases hr
    exact Nat.one_pos
  | _ =>
    cases hr
    exact Nat.succ_pos _

/-- Settles O36: the opcode is among the bytes read, so both memories decode alike; a decode failure reads no other byte, and an
instruction is `execute_reads_only_accesses`. -/
theorem stepReadsOnlyTheBytesItAccesses : Obligations.StepReadsOnlyTheBytesItAccesses := by
  intro s m hrun hreads
  change ReadsAlike s m (report s).accesses at hreads
  have hrun' : { s with mem := m }.fault = none := hrun
  cases hd : decode s.fetchOpcode with
  | failure opcode =>
    rw [report_failure hrun hd] at hreads
    have hop : { s with mem := m }.fetchOpcode = s.fetchOpcode := hreads.fetch (List.mem_singleton_self _)
    have hd' : decode { s with mem := m }.fetchOpcode = .failure opcode := by rw [hop, hd]
    refine ⟨?_, _, _, step_failure hrun hd, step_failure hrun' hd', ?_⟩
    · rw [report_failure hrun hd, report_failure hrun' hd', hop]
    · rw [hop]
      rfl
  | instruction i =>
    obtain ⟨r, hr, hexec⟩ := exec_done i s
    rw [report_instruction hrun hd hr, readsAlike_append] at hreads
    obtain ⟨hfetch, hdata⟩ := hreads
    have hop : { s with mem := m }.fetchOpcode = s.fetchOpcode :=
      hfetch.fetch (fetch_pc_mem_fetchesFrom s.pc (execute_consumes_opcode i hr))
    have hd' : decode { s with mem := m }.fetchOpcode = .instruction i := by rw [hop, hd]
    obtain ⟨hsame, m', hr'⟩ := execute_reads_only_accesses i hr hfetch hdata
    obtain ⟨r', hr'', hexec'⟩ := exec_done i { s with mem := m }
    obtain rfl : { r with state := { r.state with mem := m' } } = r' := by simpa [hr'] using hr''
    refine ⟨?_, _, _, (step_instruction hrun hd).trans hexec, (step_instruction hrun' hd').trans hexec', rfl⟩
    rw [report_instruction hrun hd hr, report_instruction hrun' hd' hr', hsame]
    rfl

/-! ## The bytes a step writes -/

/-- The writes among the transactions. -/
def writesOf (accesses : List Access) : List Access := accesses.filter fun access => (Spec.readAddress access).isNone

theorem write_mem_writesOf {accesses : List Access} {a : Word} {v : Byte} :
    .write a v ∈ writesOf accesses ↔ .write a v ∈ accesses := by
  simp [writesOf, Spec.readAddress]

theorem writesOf_fetchesFrom (pc : Word) (n : Nat) : writesOf (fetchesFrom pc n) = [] := by
  induction n generalizing pc with
  | zero => rfl
  | succ n ih => exact ih (pc + 1)

/-- The transactions write what the step leaves in memory: no byte, or one. -/
def WritesAre (writes : List Access) (m m' : Memory) : Prop :=
  (writes = [] ∧ m' = m) ∨ ∃ a v, writes = [.write a v] ∧ m' = m.write a.toNat v

theorem execute_writes (i : Instr) {s : State} {r : Executed} (hr : execute i.toInstruction s = .done r) :
    WritesAre (writesOf (dataAccesses i.toInstruction s)) s.mem r.state.mem := by
  induction i using instr_cases with
  | arith op tg =>
    rw [toInstruction_ofArith] at *
    rw [execute_arith, executeArith_eq] at hr
    cases hr
    exact .inl ⟨by cases tg <;> rfl, rfl⟩
  | ldBCd16 | ldDEd16 | ldHLd16 | ldSPd16 | ldBd8 | ldDd8 | ldHd8 =>
    cases hr
    exact .inl ⟨rfl, rfl⟩
  | ldMemBCA | ldMemDEA | ldMemHLIncA | ldMemHLDecA | ldMemHLd8 =>
    cases hr
    exact .inr ⟨_, _, rfl, rfl⟩

/-- Everything a step does to memory is the one write it reports, if any (20_memory.md R60). -/
theorem step_writes {s t : State} (h : step s = .next t) : WritesAre (writesOf (report s).accesses) s.mem t.mem := by
  obtain ⟨hrun, ⟨i, hd, hexec⟩ | ⟨hd, rfl⟩⟩ := step_next_cases h
  · obtain ⟨r, hr, hcomplete⟩ := exec_done i s
    obtain rfl : t = retire r := by simpa [hcomplete] using hexec
    have hfetches := writesOf_fetchesFrom s.pc r.bytesConsumed
    rw [report_instruction hrun hd hr, writesOf, List.filter_append, ← writesOf, ← writesOf, hfetches]
    exact execute_writes i hr
  · rw [report_failure hrun hd]
    exact .inl ⟨rfl, rfl⟩

/-- Settles O37, by `step_writes` and the law of a read after a write. -/
theorem stepWritesExactlyTheBytesItAccesses : Obligations.StepWritesExactlyTheBytesItAccesses := by
  intro s t h
  change (∀ a v, _ → _) ∧ _ ∧ (writesOf (report s).accesses).length ≤ 1
  simp only [← write_mem_writesOf (accesses := (report s).accesses)]
  obtain ⟨hnone, hmem⟩ | ⟨a, v, hone, hmem⟩ := step_writes h
  · rw [hnone, hmem]
    exact ⟨by simp, fun _ _ => rfl, Nat.zero_le _⟩
  · rw [hone, hmem]
    refine ⟨fun a' v' hin => ?_, fun x hx => ?_, Nat.le_refl _⟩
    · obtain ⟨rfl, rfl⟩ : a' = a ∧ v' = v := by simpa using hin
      exact read_write_same _ _ _
    · exact read_write_other _ _ (hx a v (List.mem_singleton_self _)).symm

/-! ## Stores to the instruction stream -/

/-- The byte after the opcode is the 8-bit immediate (30_encoding.md R77). -/
theorem following_one_eq_imm8 (s : State) : Spec.following 1 s = s.imm8 := by
  simp [Spec.following, State.imm8, State.readByte, BitVec.toNat_add]

/-- A byte written at the PC the instruction leaves is the next opcode fetched (20_memory.md R61). -/
theorem fetchOpcode_retire_of_write {r : Executed} {m : Memory} {addr : Word} {v : Byte} (hmem : r.state.mem = m.write addr.toNat v)
    (hpc : addr = r.state.pc + BitVec.ofNat 16 r.bytesConsumed) : (retire r).fetchOpcode = v := by
  rw [State.fetchOpcode, State.readByte, retire_mem, retire_pc, hmem, hpc, read_write_same]

/-- A step of a running block is the instruction of its opcode (40_step.md R101). -/
theorem exec_of_step {s t : State} {opcode : Byte} (i : Instr) (hrun : s.fault = none) (hstep : step s = .next t)
    (hop : s.mem.read s.pc.toNat = opcode) (hd : decode opcode = .instruction i) : exec i s = .next t := by
  have hfetch : s.fetchOpcode = opcode := hop
  rw [← hstep, step_instruction hrun (hfetch ▸ hd)]

/-- Settles O39: each store writes its byte where the next step fetches, and the next step decodes what it fetches. -/
theorem storeIsSeenByTheNextFetch : Obligations.StoreIsSeenByTheNextFetch := by
  intro s t v hrun hstore hstep
  have hnext : t.fault = none ∧ t.fetchOpcode = v := by
    rcases hstore with ⟨rfl, ⟨hop, haddr⟩ | ⟨hop, haddr⟩ | ⟨hop | hop, haddr⟩⟩ | ⟨rfl, hop, haddr⟩
    · cases exec_of_step .ldMemBCA hrun hstep hop rfl
      exact ⟨hrun, fetchOpcode_retire_of_write rfl haddr⟩
    · cases exec_of_step .ldMemDEA hrun hstep hop rfl
      exact ⟨hrun, fetchOpcode_retire_of_write rfl haddr⟩
    · cases exec_of_step .ldMemHLIncA hrun hstep hop rfl
      exact ⟨hrun, fetchOpcode_retire_of_write rfl haddr⟩
    · cases exec_of_step .ldMemHLDecA hrun hstep hop rfl
      exact ⟨hrun, fetchOpcode_retire_of_write rfl haddr⟩
    · cases exec_of_step .ldMemHLd8 hrun hstep hop rfl
      rw [following_one_eq_imm8]
      exact ⟨hrun, fetchOpcode_retire_of_write rfl haddr⟩
  obtain ⟨hfault, rfl⟩ := hnext
  refine ⟨rfl, ?_⟩
  cases hd : decode t.fetchOpcode with
  | instruction i => exact step_instruction hfault hd
  | failure opcode =>
    rw [step_failure hfault hd, decode_failure_names hd]
    rfl

/-- Settles O40: the byte written is the one read at that address, and writing it back keeps canonical memory. -/
theorem storeOverItsOwnImmediateChangesNothing : Obligations.StoreOverItsOwnImmediateChangesNothing := by
  intro s hm hHL
  have hmem : s.mem.write (s.readPair .hl).toNat s.imm8 = s.mem := by
    rw [hHL]
    exact write_read_same s.mem _ hm (word_in_addressSpace _)
  refine ⟨_, exec_ldMemHLd8 s, ?_⟩
  simp [retire, executeStoreImm8, State.writeByte, hmem]

end Sys2Proof.Machine
end

section
/-! PROOFS. The statements about the encoding: the decoder's fields and its failures, the decoder against the encoder, an encoded
instruction stored in memory and read back, and the opcode table's rows as values of the engine. -/

namespace Sys2Proof.Machine

/-! ## The fields of an arithmetic opcode -/

/-- Opcode `0x80 + 8 o + r` has operation field o and target field r (30_encoding.md R71 to R73). -/
theorem decode_arith_fields (o r : Fin 8) :
    decode (BitVec.ofNat 8 (0x80 + 8 * o.val + r.val)) = .instruction (.ofArith (.ofField o) (.ofField r)) := by
  have hfamily : (0x80 + 8 * o.val + r.val) % 256 / 64 % 4 = 2 := by omega
  have hop : (0x80 + 8 * o.val + r.val) % 256 / 8 % 8 = o := by omega
  have htarget : (0x80 + 8 * o.val + r.val) % 256 % 8 = r := by omega
  simp [decode, opcodeField, hfamily, hop, htarget]

/-- Settles O1: the fields are o and r, and each field's table is in the order of the list. -/
theorem arithmeticOpcodesDecodeByField : Obligations.ArithmeticOpcodesDecodeByField := by
  intro o r
  have hop : ∀ o : Fin 8, AluOp.ofField o = [AluOp.add, .addCarry, .sub, .subCarry, .and, .xor, .or, .compare][o.val] := by decide
  have htarget : ∀ r : Fin 8, ArithmeticTarget.ofField r = [ArithmeticTarget.b, .c, .d, .e, .h, .l, .indirectHL, .a][r.val] := by
    decide
  exact ⟨_, decode_arith_fields o r, by rw [toInstruction_ofArith, hop, htarget]⟩

/-! ## The decoder and the encoder -/

section
open Laws.Encoding

/-- `Laws.Encoding.Statement` holds of the whole opcode table. -/
theorem encoding_statement (i : Instr) : Statement i := by
  cases i
  exacts [addAB, addAC, addAD, addAE, addAH, addAL, addAMemHL, addAA,
    adcAB, adcAC, adcAD, adcAE, adcAH, adcAL, adcAMemHL, adcAA,
    subB, subC, subD, subE, subH, subL, subMemHL, subA,
    sbcAB, sbcAC, sbcAD, sbcAE, sbcAH, sbcAL, sbcAMemHL, sbcAA,
    andB, andC, andD, andE, andH, andL, andMemHL, andA,
    xorB, xorC, xorD, xorE, xorH, xorL, xorMemHL, xorA,
    orB, orC, orD, orE, orH, orL, orMemHL, orA,
    cpB, cpC, cpD, cpE, cpH, cpL, cpMemHL, cpA,
    ldBCd16, ldDEd16, ldHLd16, ldSPd16, ldMemBCA, ldMemDEA, ldMemHLIncA, ldMemHLDecA,
    ldBd8, ldDd8, ldHd8, ldMemHLd8]

end

theorem decode_encodeOpcode (i : Instr) : decode (encodeOpcode i) = .instruction i :=
  (encoding_statement i).2.1

/-- Settles O4: `decode_encodeOpcode` one way, `encodeOpcode_of_decode` the other. -/
theorem decodeIffEncode : Obligations.DecodeIffEncode :=
  fun _ i => ⟨encodeOpcode_of_decode, fun h => h ▸ decode_encodeOpcode i⟩

/-- Settles O2: the twelve opcodes are those of the encoder; the rest are written-out words. -/
theorem loadOpcodesDecode : Obligations.LoadOpcodesDecode :=
  ⟨⟨decode_encodeOpcode .ldBCd16, decode_encodeOpcode .ldDEd16, decode_encodeOpcode .ldHLd16, decode_encodeOpcode .ldSPd16⟩,
    ⟨decode_encodeOpcode .ldMemBCA, decode_encodeOpcode .ldMemDEA, decode_encodeOpcode .ldMemHLIncA,
      decode_encodeOpcode .ldMemHLDecA⟩,
    ⟨decode_encodeOpcode .ldBd8, decode_encodeOpcode .ldDd8, decode_encodeOpcode .ldHd8, decode_encodeOpcode .ldMemHLd8⟩,
    ⟨rfl, rfl, rfl, rfl⟩, rfl, rfl, rfl, rfl⟩

/-! ## The undefined opcodes -/

/-- The arithmetic family ends below the last undefined range (30_encoding.md R79). -/
theorem encodeOpcode_ofArith_lt (op : AluOp) (t : ArithmeticTarget) : (encodeOpcode (.ofArith op t)).toNat < 0xC0 := by
  cases op <;> cases t <;> decide

/-- No opcode of the table is in an undefined range. -/
theorem encodeOpcode_not_undefined (i : Instr) : ¬ Spec.Undefined (encodeOpcode i) := by
  induction i using instr_cases with
  | arith op t =>
    have hlow := encodeOpcode_ofArith op t
    have hhigh := encodeOpcode_ofArith_lt op t
    simp only [Spec.Undefined]
    omega
  | _ => simp [Spec.Undefined, encodeOpcode]

/-- Format LD8 fails only on an odd destination field (30_encoding.md R76). -/
theorem odd_of_decodeLd8_failure {opcode b : Byte} {d : Nat} (hd : d < 8) (h : decodeLd8 opcode d = .failure b) : d % 2 = 1 := by
  revert h
  fun_cases decodeLd8 opcode d <;> intro h
  case case5 => grind
  all_goals cases h

/-- The decoder fails only in the undefined ranges: on an odd LD8 destination, on another low field of a load, and on bits 7..6 that
are neither family's (30_encoding.md R71, R79). -/
theorem undefined_of_decode_failure {opcode b : Byte} (h : decode opcode = .failure b) : Spec.Undefined opcode := by
  have hlt := opcode.isLt
  simp only [decode, decodeLoad] at h
  split_ifs at h
  all_goals simp only [opcodeField, Spec.Undefined] at *
  · have hodd := odd_of_decodeLd8_failure (by omega) h
    omega
  · omega
  · omega

/-- Settles O3: no opcode of the table is undefined, and the decoder's failures are. -/
theorem undefinedOpcodesFail : Obligations.UndefinedOpcodesFail := by
  intro opcode
  obtain ⟨i, hd, rfl⟩ | hd := decode_cases opcode
  · exact ⟨fun h => absurd h (encodeOpcode_not_undefined i), fun _ => ⟨i, hd⟩⟩
  · exact ⟨fun _ => hd, fun h => absurd (undefined_of_decode_failure hd) h⟩

/-! ## Bytes stored from an address on -/

@[simp] theorem writeBytes_pc (s : State) (a : Word) (vs : List Byte) : (s.writeBytes a vs).pc = s.pc := by
  induction vs generalizing s a with
  | nil => rfl
  | cons v vs ih => exact ih (s.writeByte a v) (a + 1)

@[simp] theorem readByte_writeByte_same (s : State) (a : Word) (v : Byte) : (s.writeByte a v).readByte a = v :=
  read_write_same s.mem a.toNat v

theorem readByte_writeByte_other (s : State) {a x : Word} (v : Byte) (hx : x ≠ a) : (s.writeByte a v).readByte x = s.readByte x :=
  read_write_other s.mem v fun h => hx (BitVec.eq_of_toNat_eq h)

/-- The address `k + 1` places on is `k` places from the next one (20_memory.md R56). -/
theorem add_ofNat_succ (a : Word) (k : Nat) : a + BitVec.ofNat 16 (k + 1) = a + 1 + BitVec.ofNat 16 k := by
  rw [Nat.add_comm k 1, BitVec.ofNat_add, ← BitVec.add_assoc]
  rfl

/-- An address none of the bytes is stored at reads as before. -/
theorem readByte_writeBytes_other (s : State) {a x : Word} {vs : List Byte} (hx : ∀ k < vs.length, x ≠ a + BitVec.ofNat 16 k) :
    (s.writeBytes a vs).readByte x = s.readByte x := by
  induction vs generalizing s a with
  | nil => rfl
  | cons v vs ih =>
    have hhead : x ≠ a := by simpa using hx 0 (Nat.succ_pos _)
    have htail : ∀ k < vs.length, x ≠ a + 1 + BitVec.ofNat 16 k := fun k hk =>
      add_ofNat_succ a k ▸ hx (k + 1) (Nat.succ_lt_succ hk)
    rw [State.writeBytes, ih _ htail, readByte_writeByte_other s v hhead]

/-- Each of the bytes stored is read back at its place: no more of them than addresses, so none is stored over another (20_memory.md
R50, R56). -/
theorem readByte_writeBytes (s : State) (a : Word) {vs : List Byte} {k : Nat} {v : Byte} (hlen : vs.length ≤ Config.addressSpace)
    (hv : vs[k]? = some v) : (s.writeBytes a vs).readByte (a + BitVec.ofNat 16 k) = v := by
  induction vs generalizing s a k with
  | nil => cases hv
  | cons w vs ih =>
    rw [State.writeBytes]
    have hfit : vs.length < 65536 := hlen
    cases k with
    | zero =>
      obtain rfl : w = v := by simpa using hv
      have hlater : ∀ j < vs.length, a + BitVec.ofNat 16 0 ≠ a + 1 + BitVec.ofNat 16 j := fun j hj => by bv_omega
      rw [readByte_writeBytes_other _ hlater, BitVec.add_zero, readByte_writeByte_same]
    | succ k =>
      rw [add_ofNat_succ]
      exact ih _ _ (Nat.le_of_lt hfit) hv

/-! ## An encoded instruction in memory -/

/-- An arithmetic instruction has no immediate (30_encoding.md R71). -/
theorem encode_ofArith (op : AluOp) (t : ArithmeticTarget) (imm : Word) :
    encode (.ofArith op t) imm = [encodeOpcode (.ofArith op t)] := by
  obtain ⟨-, -, hlen⟩ := encoding_statement (.ofArith op t)
  simp only [toInstruction_ofArith] at hlen
  rw [encode, List.length_eq_zero_iff.1 (hlen imm)]

/-- An encoding is the opcode alone, or with the immediate's low byte, or with both its bytes (30_encoding.md R71, R77). -/
theorem encode_cases (i : Instr) (imm : Word) :
    encode i imm = [encodeOpcode i] ∨ encode i imm = [encodeOpcode i, lowByte imm] ∨
      encode i imm = [encodeOpcode i, lowByte imm, highByte imm] := by
  induction i using instr_cases with
  | arith op t => exact .inl (encode_ofArith op t imm)
  | ldMemBCA | ldMemDEA | ldMemHLIncA | ldMemHLDecA => exact .inl rfl
  | ldBd8 | ldDd8 | ldHd8 | ldMemHLd8 => exact .inr (.inl rfl)
  | ldBCd16 | ldDEd16 | ldHLd16 | ldSPd16 => exact .inr (.inr rfl)

theorem encode_length_le (i : Instr) (imm : Word) : (encode i imm).length ≤ 3 := by
  rcases encode_cases i imm with h | h | h <;> simp [h]

theorem encode_second_byte {i : Instr} {imm : Word} (hlen : 1 < (encode i imm).length) :
    (encode i imm)[1]? = some (lowByte imm) := by
  rcases encode_cases i imm with h | h | h <;> simp_all

theorem encode_third_byte {i : Instr} {imm : Word} (hlen : 2 < (encode i imm).length) :
    (encode i imm)[2]? = some (highByte imm) := by
  rcases encode_cases i imm with h | h | h <;> simp_all

/-- Every instruction consumes the bytes of its encoding (40_step.md R106). -/
theorem execute_bytesConsumed (i : Instr) (imm : Word) {s : State} {r : Executed} (hr : execute i.toInstruction s = .done r) :
    r.bytesConsumed = (encode i imm).length := by
  induction i using instr_cases with
  | arith op t =>
    rw [toInstruction_ofArith] at hr
    cases hr
    rw [executeArith_eq, encode_ofArith, List.length_singleton]
  | _ =>
    cases hr
    rfl

section
variable (i : Instr) (imm : Word) (s : State)

/-- The bytes of an encoding stored from PC on are read back at their places. -/
theorem readByte_encode {k : Nat} {v : Byte} (hv : (encode i imm)[k]? = some v) :
    (s.writeBytes s.pc (encode i imm)).readByte ((s.writeBytes s.pc (encode i imm)).pc + BitVec.ofNat 16 k) = v := by
  rw [writeBytes_pc]
  exact readByte_writeBytes s s.pc ((encode_length_le i imm).trans (by decide)) hv

theorem fetchOpcode_encode : (s.writeBytes s.pc (encode i imm)).fetchOpcode = encodeOpcode i := by
  have hread := readByte_encode i imm s (k := 0) rfl
  rwa [BitVec.add_zero] at hread

theorem imm8_encode (hlen : 1 < (encode i imm).length) : (s.writeBytes s.pc (encode i imm)).imm8 = lowByte imm :=
  readByte_encode i imm s (encode_second_byte hlen)

theorem imm16_encode (hlen : 2 < (encode i imm).length) : (s.writeBytes s.pc (encode i imm)).imm16 = imm :=
  calc
    _ = joinBytes (highByte imm) (lowByte imm) :=
      congrArg₂ joinBytes (readByte_encode i imm s (encode_third_byte hlen)) (imm8_encode i imm s (Nat.lt_of_succ_lt hlen))
    _ = imm := joinBytes_highByte_lowByte imm

end

/-- Settles O5: the bytes of the encoding are read back at their places, where the engine looks for the opcode and the immediate. -/
theorem encodedInstructionIsFetchedWithItsImmediate : Obligations.EncodedInstructionIsFetchedWithItsImmediate := by
  intro i imm s t
  obtain ⟨hwf, hdecode, -⟩ := encoding_statement i
  obtain ⟨r, hr, -⟩ := exec_done i t
  refine ⟨hwf, ?_, ⟨r, hr, execute_bytesConsumed i imm hr⟩, fun hlen => ?_, fun hlen => ?_⟩
  · rw [fetchOpcode_encode, hdecode]
  · exact imm8_encode i imm s (by omega)
  · exact imm16_encode i imm s (by omega)

/-! ## The opcode table in the engine -/

/-- A value that is executed completes. -/
theorem applyInstruction_done {ins : Instruction} {s : State} {r : Executed} (h : execute ins s = .done r) :
    applyInstruction ins s = complete r := by
  rw [applyInstruction, h]

/-- Settles O42, by `exec_done`: `exec` completes what `execute` returns. -/
theorem dispatchAgreesWithTheEngine : Obligations.DispatchAgreesWithTheEngine := by
  intro i s
  obtain ⟨r, hr, hexec⟩ := exec_done i s
  rw [hexec, applyInstruction_done hr]

end Sys2Proof.Machine
end

section
/-! PROOFS. The statements about the step: its length and cost, what it shows on the ports, the invariant over the whole vocabulary and
over runs, the driver boundary, and the end of a run (40_step.md). -/

namespace Sys2Proof.Machine

/-! ## The invariant over the whole vocabulary -/

/-- Taking the violation of a value outside the engine-defined set leaves a coherent latch (60_exceptions.md R182, R183). -/
theorem takeFault_violation_latchCoherent {ins : Instruction} (h : ins.wellFormed = false) (s : State) :
    (takeFault (.engineContractViolation ins) s).latchCoherent = true := by
  simp [State.latchCoherent, h]

/-- Settles O54: a defined value is executed, which keeps F and memory in form and the latch clear; any other latches its violation. -/
theorem applyingAnyInstructionKeepsTheInvariant : Obligations.ApplyingAnyInstructionKeepsTheInvariant := by
  intro ins s t hs hrun happly
  cases hdef : ins.wellFormed with
  | true =>
    obtain ⟨r, hr, hfault⟩ := execute_defined hdef s
    obtain rfl : t = retire r := by simpa [applyInstruction_done hr] using happly
    exact retire_execute_inv hr hs (hfault.trans hrun)
  | false =>
    obtain rfl : takeFault (.engineContractViolation ins) s = t := by simpa [applyInstruction_violation hdef] using happly
    obtain ⟨hflags, hmem, -⟩ := hs
    exact ⟨hflags, hmem, takeFault_violation_latchCoherent hdef s⟩

/-! ## Length and cost -/

section
variable (op : AluOp) (t : ArithmeticTarget)

/-- The arithmetic family is opcodes 0x80 to 0xBF (30_encoding.md R82). -/
theorem encodeOpcode_ofArith_range : 0x80 ≤ (encodeOpcode (.ofArith op t)).toNat ∧ (encodeOpcode (.ofArith op t)).toNat ≤ 0xBF :=
  ⟨encodeOpcode_ofArith op t, Nat.le_of_lt_succ (encodeOpcode_ofArith_lt op t)⟩

/-- The target field of an arithmetic opcode is 0b110 exactly for (HL) (30_encoding.md R73). -/
theorem encodeOpcode_ofArith_mod : (encodeOpcode (.ofArith op t)).toNat % 8 = 0b110 ↔ t = .indirectHL := by
  cases op <;> cases t <;> decide

/-- An arithmetic instruction is its opcode byte alone (40_step.md R106). -/
theorem lengthOf_ofArith : Spec.lengthOf (encodeOpcode (.ofArith op t)) = 1 := if_pos (encodeOpcode_ofArith_range op t)

/-- An arithmetic instruction costs what its target does (40_step.md R107). -/
theorem costOf_ofArith : Spec.costOf (encodeOpcode (.ofArith op t)) = targetCycles t := by
  rw [Spec.costOf, if_pos (encodeOpcode_ofArith_range op t)]
  simp only [encodeOpcode_ofArith_mod]
  cases t <;> rfl

end

/-- An instruction consumes the length and the cost of its opcode (40_step.md R106, R107). -/
theorem execute_length_cost (i : Instr) {s : State} {r : Executed} (hr : execute i.toInstruction s = .done r) :
    r.bytesConsumed = Spec.lengthOf (encodeOpcode i) ∧ r.cyclesConsumed = Spec.costOf (encodeOpcode i) := by
  induction i using instr_cases with
  | arith op t =>
    rw [toInstruction_ofArith, execute_arith, executeArith_eq] at hr
    cases hr
    exact ⟨(lengthOf_ofArith op t).symm, (costOf_ofArith op t).symm⟩
  | _ =>
    cases hr
    exact ⟨rfl, rfl⟩

/-- `execute` leaves PC and CYC to the sequencer, and the latch as it was (40_step.md R102). -/
theorem execute_keeps_pc_cyc_fault (i : Instr) {s : State} {r : Executed} (hr : execute i.toInstruction s = .done r) :
    r.state.pc = s.pc ∧ r.state.cyc = s.cyc ∧ r.state.fault = s.fault := by
  induction i using instr_cases with
  | arith op t =>
    rw [toInstruction_ofArith, execute_arith, executeArith_eq] at hr
    cases hr
    exact ⟨rfl, rfl, rfl⟩
  | _ =>
    cases hr
    exact ⟨rfl, rfl, rfl⟩

theorem retire_pc_toNat (r : Executed) : (retire r).pc.toNat = (r.state.pc.toNat + r.bytesConsumed) % 65536 := by
  simp [BitVec.toNat_add]

/-- Settles O8: the two fields `retire` writes. -/
theorem sequencerAdvancesPcAndCyc : Obligations.SequencerAdvancesPcAndCyc :=
  fun r => ⟨retire_pc_toNat r, retire_cyc r, rfl⟩

/-- Settles O9: `exec` retires what `execute` returns. -/
theorem everyInstructionAdvancesByItsLengthAndCost : Obligations.EveryInstructionAdvancesByItsLengthAndCost := by
  intro i s
  obtain ⟨r, hr, hexec⟩ := exec_done i s
  obtain ⟨hlength, hcost⟩ := execute_length_cost i hr
  obtain ⟨hpc, hcyc, hfault⟩ := execute_keeps_pc_cyc_fault i hr
  exact ⟨retire r, hexec, by rw [retire_pc_toNat, hpc, hlength], by rw [retire_cyc, hcyc, hcost], hfault⟩

/-! ## Runs -/

/-- No instruction costs more than 3 cycles (40_step.md R107). -/
theorem costOf_le_three (opcode : Byte) : Spec.costOf opcode ≤ 3 := by
  unfold Spec.costOf
  split_ifs <;> decide

/-- A step adds to CYC at most the largest cost; a failing one leaves it (40_step.md R108). -/
theorem step_cyc {s t : State} (h : step s = .next t) : s.cyc ≤ t.cyc ∧ t.cyc ≤ s.cyc + 3 := by
  obtain ⟨-, ⟨i, -, hexec⟩ | ⟨-, rfl⟩⟩ := step_next_cases h
  · obtain ⟨u, hu, -, hcyc, -⟩ := everyInstructionAdvancesByItsLengthAndCost i s
    obtain rfl : t = u := by simpa [hexec] using hu
    have hcost := costOf_le_three (encodeOpcode i)
    omega
  · simp

/-- A run of one step more that answers next took that step and went on from its state (40_step.md R110). -/
theorem run_succ_next_cases {n : Nat} {s t : State} (h : core.run (n + 1) s = .next t) :
    ∃ u, step s = .next u ∧ core.run n u = .next t := by
  cases hstep : step s with
  | next u => exact ⟨u, rfl, by rwa [run_next hstep] at h⟩
  | fault x => simp [run_succ_fault core hstep] at h
  | refused x => simp [Host.Core.run, show core.step s = .refused x from hstep] at h

/-- Settles O55, by induction on the steps: `stepKeepsTheInvariant` and `step_cyc` for the first, the hypothesis for the rest. -/
theorem runsKeepTheInvariantAndCountCycles : Obligations.RunsKeepTheInvariantAndCountCycles := by
  intro n
  induction n with
  | zero =>
    intro s t hs hrun
    cases hrun
    exact ⟨hs, Nat.le_refl _, Nat.le_refl _, fun h => absurd h (Nat.lt_irrefl 0)⟩
  | succ n ih =>
    intro s t hs hrun
    obtain ⟨u, hstep, hrest⟩ := run_succ_next_cases hrun
    obtain ⟨hgrows, hbound⟩ := step_cyc hstep
    obtain ⟨hinv, hgrows', hbound', -⟩ := ih u t (stepKeepsTheInvariant s u hs hstep) hrest
    exact ⟨hinv, hgrows.trans hgrows', by omega, fun _ => (step_next_cases hstep).1⟩

/-! ## The ports -/

/-- The fetches of a length are the addresses from PC on, modulo 65536 (40_step.md R109). -/
theorem fetchesFrom_eq_map (pc : Word) (n : Nat) :
    fetchesFrom pc n = (List.range n).map fun k => .fetch (pc + BitVec.ofNat 16 k) := by
  induction n generalizing pc with
  | zero => rfl
  | succ n ih =>
    simp only [fetchesFrom, ih, List.range_succ_eq_map, List.map_cons, List.map_map, Function.comp_def, Nat.succ_eq_add_one,
      add_ofNat_succ, BitVec.add_zero]

theorem fetchesFrom_eq_fetches (s : State) (n : Nat) : fetchesFrom s.pc n = Spec.fetches n s := by
  have haddr (k : Nat) : s.pc + BitVec.ofNat 16 k = BitVec.ofNat 16 ((s.pc.toNat + k) % 65536) := by
    apply BitVec.eq_of_toNat_eq
    simp [BitVec.toNat_add]
  simp only [fetchesFrom_eq_map, haddr, Spec.fetches]

theorem ofNat_eq_joinBytes (hi lo : Byte) : BitVec.ofNat 16 (hi.toNat * 256 + lo.toNat) = joinBytes hi lo := by
  rw [← joinBytes_toNat, BitVec.ofNat_toNat, BitVec.setWidth_eq]

/-- An arithmetic opcode reads the byte at HL exactly for the target (HL) (20_memory.md R53). -/
theorem dataAccesses_ofArith (op : AluOp) (t : ArithmeticTarget) (s : State) :
    dataAccesses (.arith op t) s = Spec.dataAccess (encodeOpcode (.ofArith op t)) s := by
  obtain ⟨hlow, hhigh⟩ := encodeOpcode_ofArith_range op t
  have hload (b : Byte) (hb : b.toNat < 0x80) : encodeOpcode (.ofArith op t) ≠ b := fun h => absurd (h ▸ hlow) (Nat.not_le_of_lt hb)
  have htarget := encodeOpcode_ofArith_mod op t
  by_cases ht : t = .indirectHL
  · rw [Spec.dataAccess, if_pos ⟨hlow, hhigh, htarget.2 ht⟩, Spec.hlAddress, ofNat_eq_joinBytes, ht]
    rfl
  · have hnone : Spec.dataAccess (encodeOpcode (.ofArith op t)) s = [] := by
      simp [Spec.dataAccess, htarget, ht, hload]
    rw [hnone]
    cases t
    case indirectHL => exact absurd rfl ht
    all_goals rfl

/-- The data access of an instruction is its row of 20_memory.md R53: a store's address is its pair's bytes joined. -/
theorem dataAccesses_eq_dataAccess (i : Instr) (s : State) :
    dataAccesses i.toInstruction s = Spec.dataAccess (encodeOpcode i) s := by
  have hbc : s.readPair .bc = BitVec.ofNat 16 (s.b.toNat * 256 + s.c.toNat) := (ofNat_eq_joinBytes s.b s.c).symm
  have hde : s.readPair .de = BitVec.ofNat 16 (s.d.toNat * 256 + s.e.toNat) := (ofNat_eq_joinBytes s.d s.e).symm
  have hhl : s.readPair .hl = BitVec.ofNat 16 (Spec.hlAddress s) := (ofNat_eq_joinBytes s.h s.l).symm
  induction i using instr_cases with
  | arith op t => rw [toInstruction_ofArith, dataAccesses_ofArith]
  | ldMemBCA => exact congrArg (fun addr => [Access.write addr s.a]) hbc
  | ldMemDEA => exact congrArg (fun addr => [Access.write addr s.a]) hde
  | ldMemHLIncA | ldMemHLDecA => exact congrArg (fun addr => [Access.write addr s.a]) hhl
  | ldMemHLd8 => exact congrArg₂ (fun addr v => [Access.write addr v]) hhl (following_one_eq_imm8 s).symm
  | _ => rfl

/-- Settles O38: an instruction reports what `execute` returns and the sequencer retires; an undefined opcode is one read and leaves PC
and CYC. -/
theorem reportAgreesWithTheStep : Obligations.ReportAgreesWithTheStep := by
  intro s t h
  have hop : s.mem.read s.pc.toNat = s.fetchOpcode := rfl
  rw [hop]
  obtain ⟨hrun, ⟨i, hd, hexec⟩ | ⟨hd, rfl⟩⟩ := step_next_cases h
  · obtain ⟨r, hr, hcomplete⟩ := exec_done i s
    obtain rfl : t = retire r := by simpa [hcomplete] using hexec
    obtain ⟨hlength, -⟩ := execute_length_cost i hr
    obtain ⟨hpc, hcyc, hfault⟩ := execute_keeps_pc_cyc_fault i hr
    rw [report_instruction hrun hd hr, ← encodeOpcode_of_decode hd]
    refine ⟨fun hundef => absurd hundef (encodeOpcode_not_undefined i), fun _ => ?_, rfl, ?_, ?_, ?_⟩
    · rw [fetchesFrom_eq_fetches, hlength, dataAccesses_eq_dataAccess]
    · rw [retire_pc_toNat, hpc]
    · rw [retire_cyc, hcyc]
    · rw [retire_fault, hfault, hrun]
  · rw [report_failure hrun hd]
    have hundef := undefined_of_decode_failure hd
    exact ⟨fun _ => rfl, fun hdef => absurd hundef hdef, rfl, (Nat.mod_eq_of_lt s.pc.isLt).symm, rfl, rfl⟩

/-! ## One step -/

/-- Settles O6, by `step_instruction`. -/
theorem stepRunsTheDecodedInstruction : Obligations.StepRunsTheDecodedInstruction :=
  fun _ _ hrun hd => step_instruction hrun hd

/-- A running block that fetches an undefined opcode takes its DecodeFailure (60_exceptions.md R181, R183). -/
theorem step_undefined {s : State} (hrun : s.fault = none) (hundef : Spec.Undefined s.fetchOpcode) :
    step s = .next (takeFault (.decodeFailure s.fetchOpcode s.pc) s) :=
  step_failure hrun ((undefinedOpcodesFail s.fetchOpcode).1 hundef)

/-- Settles O7: the driver's step is the step of the state with the passed program counter in PC. -/
theorem driverStepsAtItsProgramCounter : Obligations.DriverStepsAtItsProgramCounter := by
  intro s programCounter hrun
  have hrun' : { s with pc := programCounter }.fault = none := hrun
  exact ⟨fun _ hd => step_instruction hrun' hd, fun hundef => step_undefined hrun' hundef⟩

/-- Settles O13: 0xFF is undefined, so the step latches its failure, and the next step stops with it. -/
theorem sentinelEndsTheRun : Obligations.SentinelEndsTheRun := by
  intro s hrun hsentinel
  have hfetch : s.fetchOpcode = 0xFF#8 := hsentinel
  have hstep : step s = .next (takeFault (.decodeFailure 0xFF#8 s.pc) s) := by
    rw [← hfetch]
    exact step_undefined hrun (by simp [hfetch, Spec.Undefined])
  refine ⟨⟨_, hstep, ⟨rfl, rfl⟩, ?_⟩, fun n => ?_⟩
  · rw [← hrun]
    rfl
  · rw [run_next hstep, run_latched (takeFault_fault s _)]

end Sys2Proof.Machine
end

section
/-! PROOFS. The statements about the arithmetic family (41_alu.md): each operation against its rule in the words of `Spec`, for every
operand at once; CP against SUB; the half-carry as a carry into bit 4; A as its own operand; the frame. -/

namespace Sys2Proof.Machine

/-! ## Results and flags in the words of the rules -/

section
variable (a v : Byte) (c : Nat)

/-- The flags of a sum, its low nibbles masked as R121 and R122 write them. -/
theorem addWithCarry_flags :
    (addWithCarry a v c).flags =
      Spec.flagsByte (a + v + BitVec.ofNat 8 c = 0) false (Spec.nibble a + Spec.nibble v + c > 0xF)
        (a.toNat + v.toNat + c > 0xFF) := by
  rw [AluResult.flags, packFlags_eq_flagsByte, addWithCarry_z, addWithCarry_result, beq_eq_decide]
  simp only [addWithCarry, lowNibble_eq, Spec.nibble]
  rfl

/-- The flags of a difference, its low nibbles masked as R123 and R124 write them. -/
theorem subWithBorrow_flags :
    (subWithBorrow a v c).flags =
      Spec.flagsByte (a - v - BitVec.ofNat 8 c = 0) true (Spec.nibble a < Spec.nibble v + c) (a.toNat < v.toNat + c) := by
  rw [AluResult.flags, packFlags_eq_flagsByte, subWithBorrow_z, subWithBorrow_result, beq_eq_decide]
  simp only [subWithBorrow, lowNibble_eq, Spec.nibble]
  rfl

theorem bitwiseResult_result (r : Byte) (h : Bool) : (bitwiseResult r h).result = r := rfl

/-- The flags of a bitwise result (41_alu.md R125 to R127). -/
theorem bitwiseResult_flags (r : Byte) (h : Bool) : (bitwiseResult r h).flags = Spec.flagsByte (r = 0) false h false := by
  rw [AluResult.flags, packFlags_eq_flagsByte]
  simp only [bitwiseResult, beq_eq_decide]
  rfl

end

/-! ## Every operation against its rule -/

/-- The rule of an operation as `Spec` writes it (41_alu.md R121 to R128). -/
def arithRule (op : AluOp) : (State → Byte) → Nat → State → Executed :=
  match op with
  | .add => Spec.add
  | .addCarry => Spec.adc
  | .sub => Spec.sub
  | .subCarry => Spec.sbc
  | .and => Spec.and
  | .xor => Spec.xor
  | .or => Spec.or
  | .compare => Spec.cp

theorem carryIn_readFlag (s : State) : carryIn (s.readFlag .c) = Spec.carry s := rfl

/-- `execute` on an arithmetic value returns what the operation's rule says, whatever the operand. -/
theorem executeArith_eq_arithRule (op : AluOp) (t : ArithmeticTarget) (s : State) :
    executeArith op t s = arithRule op (·.operand t) (targetCycles t) s := by
  rw [executeArith_eq]
  cases op with
  | add => simp [arithRule, Spec.add, Spec.arithEffect, aluOf, aluAdd, addWithCarry_result, addWithCarry_flags]
  | addCarry =>
    simp [arithRule, Spec.adc, Spec.arithEffect, aluOf, aluAddCarry, addWithCarry_result, addWithCarry_flags, carryIn_readFlag]
  | sub => simp [arithRule, Spec.sub, Spec.arithEffect, aluOf, aluSub, subWithBorrow_result, subWithBorrow_flags]
  | subCarry =>
    simp [arithRule, Spec.sbc, Spec.arithEffect, aluOf, aluSubCarry, subWithBorrow_result, subWithBorrow_flags, carryIn_readFlag]
  | and => simp [arithRule, Spec.and, Spec.arithEffect, aluOf, aluAnd, bitwiseResult_result, bitwiseResult_flags]
  | xor => simp [arithRule, Spec.xor, Spec.arithEffect, aluOf, aluXor, bitwiseResult_result, bitwiseResult_flags]
  | or => simp [arithRule, Spec.or, Spec.arithEffect, aluOf, aluOr, bitwiseResult_result, bitwiseResult_flags]
  | compare => simp [arithRule, Spec.cp, Spec.arithEffect, aluOf, aluSub, subWithBorrow_flags]

/-- The row of any arithmetic opcode: the operation's rule on the operand `v` that the target names. -/
theorem row_ofArith (op : AluOp) (t : ArithmeticTarget) {v : State → Byte} (hv : ∀ s : State, s.operand t = v s) :
    Spec.Row (encodeOpcode (.ofArith op t)) (.ofArith op t) (.arith op t) (arithRule op v (targetCycles t)) := by
  obtain rfl : (·.operand t) = v := funext hv
  refine ⟨decode_encodeOpcode _, toInstruction_ofArith op t, fun s => ?_⟩
  rw [← executeArith_eq_arithRule]
  exact ⟨execute_arith op t s, exec_ofArith op t s⟩

/-- The operand (HL) is the byte at `h * 256 + l` (40_step.md R103). -/
theorem operand_indirectHL (s : State) : s.operand .indirectHL = Spec.atHL s :=
  congrArg s.mem.read (readPair_hl_toNat s)

/-- The eight rows of an operation, in the order of field r (30_encoding.md R73). -/
theorem rows_ofArith (op : AluOp) :
    Spec.Row (encodeOpcode (.ofArith op .b)) (.ofArith op .b) (.arith op .b) (arithRule op (·.b) 1) ∧
    Spec.Row (encodeOpcode (.ofArith op .c)) (.ofArith op .c) (.arith op .c) (arithRule op (·.c) 1) ∧
    Spec.Row (encodeOpcode (.ofArith op .d)) (.ofArith op .d) (.arith op .d) (arithRule op (·.d) 1) ∧
    Spec.Row (encodeOpcode (.ofArith op .e)) (.ofArith op .e) (.arith op .e) (arithRule op (·.e) 1) ∧
    Spec.Row (encodeOpcode (.ofArith op .h)) (.ofArith op .h) (.arith op .h) (arithRule op (·.h) 1) ∧
    Spec.Row (encodeOpcode (.ofArith op .l)) (.ofArith op .l) (.arith op .l) (arithRule op (·.l) 1) ∧
    Spec.Row (encodeOpcode (.ofArith op .indirectHL)) (.ofArith op .indirectHL) (.arith op .indirectHL)
      (arithRule op Spec.atHL 2) ∧
    Spec.Row (encodeOpcode (.ofArith op .a)) (.ofArith op .a) (.arith op .a) (arithRule op (·.a) 1) :=
  ⟨row_ofArith op .b fun _ => rfl, row_ofArith op .c fun _ => rfl, row_ofArith op .d fun _ => rfl, row_ofArith op .e fun _ => rfl,
    row_ofArith op .h fun _ => rfl, row_ofArith op .l fun _ => rfl, row_ofArith op .indirectHL operand_indirectHL,
    row_ofArith op .a fun _ => rfl⟩

/-- Settles O14: the eight rows of ADD. -/
theorem addRuleOfEveryOperand : Obligations.AddRuleOfEveryOperand := rows_ofArith .add

/-- Settles O15: the eight rows of ADC. -/
theorem adcRuleOfEveryOperand : Obligations.AdcRuleOfEveryOperand := rows_ofArith .addCarry

/-- Settles O16: the eight rows of SUB. -/
theorem subRuleOfEveryOperand : Obligations.SubRuleOfEveryOperand := rows_ofArith .sub

/-- Settles O17: the eight rows of SBC. -/
theorem sbcRuleOfEveryOperand : Obligations.SbcRuleOfEveryOperand := rows_ofArith .subCarry

/-- Settles O18: the eight rows of AND. -/
theorem andRuleOfEveryOperand : Obligations.AndRuleOfEveryOperand := rows_ofArith .and

/-- Settles O19: the eight rows of XOR. -/
theorem xorRuleOfEveryOperand : Obligations.XorRuleOfEveryOperand := rows_ofArith .xor

/-- Settles O20: the eight rows of OR. -/
theorem orRuleOfEveryOperand : Obligations.OrRuleOfEveryOperand := rows_ofArith .or

/-- Settles O21: the eight rows of CP. -/
theorem cpRuleOfEveryOperand : Obligations.CpRuleOfEveryOperand := rows_ofArith .compare

/-! ## The next state of an arithmetic instruction -/

/-- The state an arithmetic instruction completes in, field by field (41_alu.md R120). -/
theorem exec_ofArith_next (op : AluOp) (t : ArithmeticTarget) (s : State) :
    exec (.ofArith op t) s =
      .next { s with
        a := if op = .compare then s.a else (aluOf op s.a (s.operand t) (s.readFlag .c)).result
        f := (aluOf op s.a (s.operand t) (s.readFlag .c)).flags
        pc := s.pc + 1
        cyc := s.cyc + targetCycles t } := by
  rw [exec_ofArith, executeArith_eq]
  rfl

/-- Settles O25: the next state differs from the old one in A (but for CP), F, PC and CYC alone, and F is packed. -/
theorem arithmeticFrame : Obligations.ArithmeticFrame := by
  intro op t s u h
  rw [exec_ofArith_next] at h
  cases h
  exact ⟨rfl, rfl, rfl, rfl, rfl, rfl, rfl, rfl, fun hop => if_pos hop, AluResult.flags_low_zero _, fun _ => rfl⟩

/-! ## The bits of F -/

section
variable (r : AluResult)

theorem AluResult.flags_z : r.flags.getLsbD 7 = r.z := by
  obtain ⟨hz, -⟩ := packFlags_bits r.z r.n r.h r.c
  exact hz

theorem AluResult.flags_h : r.flags.getLsbD 5 = r.h := by
  obtain ⟨-, -, hh, -⟩ := packFlags_bits r.z r.n r.h r.c
  exact hh

theorem AluResult.flags_c : r.flags.getLsbD 4 = r.c := by
  obtain ⟨-, -, -, hc⟩ := packFlags_bits r.z r.n r.h r.c
  exact hc

end

/-! ## CP and SUB -/

/-- A difference is zero exactly when the operands are equal (41_alu.md R123). -/
theorem aluSub_z_iff (a v : Byte) : (aluSub a v).z = true ↔ a = v := by
  rw [aluSub, subWithBorrow_z, subWithBorrow_result, beq_iff_eq, BitVec.sub_zero, BitVec.sub_eq_iff_eq_add, BitVec.zero_add]

/-- A difference borrows exactly when A is less than the operand (41_alu.md R123). -/
theorem aluSub_c_iff (a v : Byte) : (aluSub a v).c = true ↔ a.toNat < v.toNat :=
  decide_eq_true_iff

/-- Settles O22: both compute `aluSub`, and CP keeps A. -/
theorem compareSetsTheFlagsOfSubtract : Obligations.CompareSetsTheFlagsOfSubtract := by
  intro t s
  refine ⟨_, _, exec_ofArith_next .compare t s, exec_ofArith_next .sub t s, rfl, rfl, ?_, ?_⟩
  · rw [AluResult.flags_z]
    exact aluSub_z_iff s.a (s.operand t)
  · rw [AluResult.flags_c]
    exact aluSub_c_iff s.a (s.operand t)

/-! ## The half-carry -/

/-- Bit 4 of a sum is the exclusive-or of the summands' bits and the carry out of their low nibbles (41_alu.md R129). -/
theorem carry_into_bit_four (x y : Byte) (c : Bool) :
    (x ^^^ y ^^^ (x + y + BitVec.ofNat 8 (carryIn c))).getLsbD 4 = decide (lowNibble x + lowNibble y + carryIn c > 15) := by
  have hsum := BitVec.getLsbD_add_add_bool (i := 4) (by decide) x y c
  have hc : BitVec.setWidth 8 (BitVec.ofBool c) = BitVec.ofNat 8 (carryIn c) := by cases c <;> rfl
  have hcarry : BitVec.carry 4 x y c = decide (lowNibble x + lowNibble y + carryIn c > 15) := by cases c <;> rfl
  rw [hc, hcarry] at hsum
  rw [BitVec.getLsbD_xor, BitVec.getLsbD_xor, hsum]
  grind

theorem aluAddCarry_h (a v : Byte) (c : Bool) :
    (aluAddCarry a v c).h = (a ^^^ v ^^^ (aluAddCarry a v c).result).getLsbD 4 := by
  rw [aluAddCarry, addWithCarry_result, carry_into_bit_four]
  rfl

/-- The borrow of `a - v - c` at bit 4 is the carry there of the sum `(a - v - c) + v + c`, which is `a`. -/
theorem aluSubCarry_h (a v : Byte) (c : Bool) :
    (aluSubCarry a v c).h = (a ^^^ v ^^^ (aluSubCarry a v c).result).getLsbD 4 := by
  rw [aluSubCarry, subWithBorrow_result]
  generalize hd : a - v - BitVec.ofNat 8 (carryIn c) = d
  have ha : d + v + BitVec.ofNat 8 (carryIn c) = a := by rw [← hd]; ring
  have hswap : a ^^^ v ^^^ d = d ^^^ v ^^^ a := by grind
  have hc : carryIn c ≤ 1 := by cases c <;> decide
  have hnibble : lowNibble a = (lowNibble d + lowNibble v + carryIn c) % 16 := by
    rw [← ha]
    simp only [lowNibble, BitVec.toNat_add, BitVec.toNat_ofNat]
    omega
  have hborrow : lowNibble a < lowNibble v + carryIn c ↔ lowNibble d + lowNibble v + carryIn c > 15 := by
    simp only [lowNibble] at *
    omega
  calc (subWithBorrow a v (carryIn c)).h
      = decide (lowNibble d + lowNibble v + carryIn c > 15) := decide_eq_decide.2 hborrow
    _ = (a ^^^ v ^^^ d).getLsbD 4 := by rw [hswap, ← carry_into_bit_four d v c, ha]

/-- Settles O23: ADD and SUB are ADC and SBC without an incoming carry, and H is the carry or borrow at bit 4. -/
theorem halfCarryIsTheCarryIntoBitFour : Obligations.HalfCarryIsTheCarryIntoBitFour := by
  intro t s
  refine ⟨fun op hop => ⟨_, exec_ofArith_next op t s, ?_⟩, _, exec_ofArith_next .compare t s, ?_⟩
  · rw [AluResult.flags_h]
    fin_cases hop
    · exact aluAddCarry_h s.a (s.operand t) false
    · exact aluAddCarry_h s.a (s.operand t) (s.readFlag .c)
    · exact aluSubCarry_h s.a (s.operand t) false
    · exact aluSubCarry_h s.a (s.operand t) (s.readFlag .c)
  · have hresult : (aluSub s.a (s.operand t)).result = s.a - s.operand t := by
      rw [aluSub, subWithBorrow_result, BitVec.sub_zero]
    rw [AluResult.flags_h, ← hresult]
    exact aluSubCarry_h s.a (s.operand t) false

/-! ## A as its own operand -/

/-- `a - a - c`: zero with no borrow, or 0xFF with both borrows, by `c` alone (41_alu.md R124). -/
theorem aluSubCarry_self (a : Byte) (c : Bool) :
    aluSubCarry a a c = { result := if c then 0xFF#8 else 0x00#8, z := !c, n := true, h := c, c := c } := by
  cases c <;> simp [aluSubCarry, subWithBorrow, carryIn]

theorem aluXor_self (a : Byte) : aluXor a a = { result := 0x00#8, z := true, n := false, h := false, c := false } := by
  rw [aluXor, BitVec.xor_self]
  rfl

/-- Settles O24: on A itself a difference depends on the incoming carry alone, which SUB and CP take as 0. -/
theorem accumulatorAsItsOwnOperand : Obligations.AccumulatorAsItsOwnOperand := by
  intro s
  have hsub := aluSubCarry_self s.a false
  have hxor := aluXor_self s.a
  refine ⟨⟨_, exec_ofArith_next .sub .a s, ?_⟩, ⟨_, exec_ofArith_next .compare .a s, rfl, ?_⟩, ⟨_, exec_ofArith_next .xor .a s, ?_⟩,
    _, exec_ofArith_next .subCarry .a s, fun hc => ?_, fun hc => ?_⟩
  · exact ⟨congrArg AluResult.result hsub, congrArg AluResult.flags hsub⟩
  · exact congrArg AluResult.flags hsub
  · exact ⟨congrArg AluResult.result hxor, congrArg AluResult.flags hxor⟩
  · have hsbc := (congrArg (aluSubCarry s.a s.a) hc).trans hsub
    exact ⟨congrArg AluResult.result hsbc, congrArg AluResult.flags hsbc⟩
  · have hsbc := (congrArg (aluSubCarry s.a s.a) hc).trans (aluSubCarry_self s.a true)
    exact ⟨congrArg AluResult.result hsbc, congrArg AluResult.flags hsbc⟩

end Sys2Proof.Machine
end

section
/-! PROOFS. The statements about the load family (42_load.md): the row of each of the twelve loads, the frames of the register loads and
of the stores, LD r,r' of the vocabulary, and the engine-defined set. -/

namespace Sys2Proof.Machine

/-! ## The immediates and HL in the words of the rules -/

section
variable (s : State)

/-- The byte `k` places after the opcode (30_encoding.md R77; the address wraps: 20_memory.md R56). -/
theorem following_eq_readByte (k : Nat) : Spec.following k s = s.readByte (s.pc + BitVec.ofNat 16 k) := by
  simp [Spec.following, State.readByte, BitVec.toNat_add]

theorem imm16_eq_following : s.imm16 = joinBytes (Spec.following 2 s) (Spec.following 1 s) := by
  rw [imm16_eq, following_eq_readByte, following_eq_readByte]
  rfl

theorem hl_toNat : (s.readPair .hl).toNat = Spec.hlAddress s := readPair_hl_toNat s

theorem hl_succ_toNat : (s.readPair .hl + 1).toNat = (Spec.hlAddress s + 1) % 65536 := by
  rw [BitVec.toNat_add, hl_toNat]
  rfl

/-- Taking 1 from HL modulo 65536 is adding 65535 to its number. -/
theorem hl_pred_toNat : (s.readPair .hl - 1).toNat = (Spec.hlAddress s + 65535) % 65536 := by
  rw [BitVec.toNat_sub, hl_toNat, Nat.add_comm]
  rfl

end

/-! ## The rows of the twelve loads -/

/-- The row of an instruction whose `execute` returns `form`, said as `effect`: its opcode is the encoder's, and `exec` completes what
`execute` returns. -/
theorem row_of_form (i : Instr) {form effect : State → Executed} (hform : ∀ s, execute i.toInstruction s = .done (form s))
    (heffect : ∀ s, form s = effect s) : Spec.Row (encodeOpcode i) i i.toInstruction effect := by
  obtain rfl : form = effect := funext heffect
  refine ⟨decode_encodeOpcode i, rfl, fun s => ⟨hform s, ?_⟩⟩
  rw [dispatchAgreesWithTheEngine, applyInstruction_done (hform s)]
  rfl

/-- Settles O26: each LD rr,d16 writes the immediate's two bytes, to the halves of a pair or joined to SP. -/
theorem loadWideRule : Obligations.LoadWideRule := by
  refine ⟨row_of_form .ldBCd16 (form := executeLoadWide .bc) (fun _ => rfl) fun s => ?_,
    row_of_form .ldDEd16 (form := executeLoadWide .de) (fun _ => rfl) fun s => ?_,
    row_of_form .ldHLd16 (form := executeLoadWide .hl) (fun _ => rfl) fun s => ?_,
    row_of_form .ldSPd16 (form := executeLoadWide .sp) (fun _ => rfl) fun s => ?_⟩
  · simp [executeLoadWide, imm16_eq_following]
  · simp [executeLoadWide, imm16_eq_following]
  · simp [executeLoadWide, imm16_eq_following]
  · simp [executeLoadWide, imm16_eq_following, ofNat_eq_joinBytes]

/-- Settles O27: the pair's address is its two bytes joined. -/
theorem storeAccumulatorThroughPairRule : Obligations.StoreAccumulatorThroughPairRule := by
  refine ⟨row_of_form .ldMemBCA (form := executeStoreA .bc) (fun _ => rfl) fun s => ?_,
    row_of_form .ldMemDEA (form := executeStoreA .de) (fun _ => rfl) fun s => ?_⟩
  · rw [executeStoreA, State.writeByte, readPair_bc_toNat]
  · rw [executeStoreA, State.writeByte, readPair_de_toNat]

/-- Settles O28: the byte is stored at HL's number, and the halves of HL plus or minus 1 are H and L. -/
theorem storeAccumulatorAndMoveHLRule : Obligations.StoreAccumulatorAndMoveHLRule := by
  refine ⟨row_of_form .ldMemHLIncA (form := executeStoreAInc) (fun _ => rfl) fun s => ?_,
    row_of_form .ldMemHLDecA (form := executeStoreADec) (fun _ => rfl) fun s => ?_⟩
  · rw [executeStoreAInc, storeThenSetHL_eq, highByte_eq, lowByte_eq, hl_succ_toNat, hl_toNat]
  · rw [executeStoreADec, storeThenSetHL_eq, highByte_eq, lowByte_eq, hl_pred_toNat, hl_toNat]

/-- Settles O29: each LD r,d8 writes the 8-bit immediate to its register. -/
theorem loadImmediateByteRule : Obligations.LoadImmediateByteRule := by
  refine ⟨row_of_form .ldBd8 (form := executeLoadImm8 .b) (fun _ => rfl) fun s => ?_,
    row_of_form .ldDd8 (form := executeLoadImm8 .d) (fun _ => rfl) fun s => ?_,
    row_of_form .ldHd8 (form := executeLoadImm8 .h) (fun _ => rfl) fun s => ?_⟩
  · rw [following_one_eq_imm8, executeLoadImm8, writeReg_b]
  · rw [following_one_eq_imm8, executeLoadImm8, writeReg_d]
  · rw [following_one_eq_imm8, executeLoadImm8, writeReg_h]

/-- Settles O30: the 8-bit immediate is stored at HL's number. -/
theorem storeImmediateByteRule : Obligations.StoreImmediateByteRule := by
  refine row_of_form .ldMemHLd8 (form := executeStoreImm8) (fun _ => rfl) fun s => ?_
  rw [following_one_eq_imm8, executeStoreImm8, State.writeByte, hl_toNat]

/-! ## What a load leaves unchanged -/

/-- Settles O31: the next state of each register load is read off its form, LD rr,d16 for the first four and LD r,d8 for the rest. -/
theorem registerLoadFrame : Obligations.RegisterLoadFrame := by
  intro i s t hi h
  fin_cases hi
  iterate 4
    cases h
    simp [executeLoadWide]
  iterate 3
    cases h
    simp [executeLoadImm8]

/-- Settles O32: each store's next state is read off its form, and its memory is that of one write. -/
theorem storeFrame : Obligations.StoreFrame := by
  intro i p v s t hi h
  simp only [List.mem_cons, List.not_mem_nil, or_false, Prod.mk.injEq] at hi
  obtain ⟨rfl, rfl, rfl⟩ | ⟨rfl, rfl, rfl⟩ | ⟨rfl, rfl, rfl⟩ | ⟨rfl, rfl, rfl⟩ | ⟨rfl, rfl, rfl⟩ := hi
  all_goals cases h
  · simp +contextual [executeStoreA, read_write_other]
  · simp +contextual [executeStoreA, read_write_other]
  · simp +contextual [executeStoreAInc, read_write_other]
  · simp +contextual [executeStoreADec, read_write_other]
  · simp +contextual [executeStoreImm8, read_write_other]

/-! ## The execute interface -/

/-- LD r,r' writes to r what r' holds (42_load.md R157). -/
theorem execute_registerCopy (r r' : Reg8) (s : State) :
    execute (.load (.reg r) (.reg r')) s = .done ⟨s.writeReg r (s.readReg r'), 1, 1⟩ := by
  cases r <;> rfl

/-- Settles O43: the one write of `execute_registerCopy`, by `readReg_writeReg`. -/
theorem registerCopyRule : Obligations.RegisterCopyRule := by
  intro r r' s
  refine ⟨_, execute_registerCopy r r' s, ?_, fun q hq => ?_, writeReg_keeps_f s r _, writeReg_keeps_sp s r _,
    writeReg_keeps_pc s r _, writeReg_keeps_mem s r _, writeReg_keeps_cyc s r _, writeReg_keeps_fault s r _⟩
  · rw [readReg_writeReg, if_pos rfl]
  · rw [readReg_writeReg, if_neg hq]

/-- Every register copy is in the engine's table (42_load.md R158). -/
theorem definedPair_reg_reg (r r' : Reg8) : (LoadTarget.reg r).definedPair (.reg r') = true := by
  cases r <;> rfl

/-- The engine's table of loads is the set of 42_load.md R158. -/
theorem engineDefined_iff_wellFormed (ins : Instruction) : Spec.EngineDefined ins ↔ ins.wellFormed = true := by
  cases ins with
  | arith op t => exact iff_of_true trivial rfl
  | load dst src =>
    constructor
    · simp only [Spec.EngineDefined, Instruction.wellFormed, List.mem_cons, List.not_mem_nil, or_false]
      rintro (⟨rfl | rfl | rfl | rfl, rfl⟩ | ⟨rfl | rfl, rfl⟩ | ⟨rfl, rfl⟩ | ⟨rfl, rfl⟩ | ⟨rfl | rfl | rfl, rfl⟩ | ⟨rfl, rfl⟩ |
        ⟨r, r', rfl, rfl⟩)
      case inr.inr.inr.inr.inr.inr => exact definedPair_reg_reg r r'
      all_goals rfl
    · rw [Instruction.wellFormed]
      fun_cases LoadTarget.definedPair dst src <;> intro h
      case case14 => cases h
      all_goals simp [Spec.EngineDefined]

/-- Settles O41: a value in the set is executed and completes; any other is the violation that names it, which latches. -/
theorem engineAcceptsExactlyTheDefinedSet : Obligations.EngineAcceptsExactlyTheDefinedSet := by
  intro ins s
  rw [engineDefined_iff_wellFormed, Bool.not_eq_true]
  refine ⟨fun hdef => ?_, fun hundef => ⟨execute_undefined hundef s, applyInstruction_violation hundef s⟩⟩
  obtain ⟨r, hr, -⟩ := execute_defined hdef s
  exact ⟨r, hr, applyInstruction_done hr⟩

end Sys2Proof.Machine
end

section
/-! PROOFS. The statements about exceptions (60_exceptions.md): what a step raises, what an undefined opcode does to a running block,
and the block with its latch set. -/

namespace Sys2Proof.Machine

/-- An opcode that decodes to an instruction is that instruction's in the table, so it is defined (30_encoding.md R78). -/
theorem not_undefined_of_decode_instruction {opcode : Byte} {i : Instr} (h : decode opcode = .instruction i) :
    ¬ Spec.Undefined opcode :=
  encodeOpcode_of_decode h ▸ encodeOpcode_not_undefined i

/-- Settles O12: the step runs an instruction, which leaves the latch clear, or it takes the failure of the opcode it fetched. -/
theorem stepRaisesOnlyDecodeFailures : Obligations.StepRaisesOnlyDecodeFailures := by
  intro s t hstep
  obtain ⟨hrun, ⟨i, hdecode, hexec⟩ | ⟨hdecode, rfl⟩⟩ := step_next_cases hstep
  · obtain ⟨u, hu, hfault⟩ := exec_next i s
    obtain rfl : t = u := by simpa [hexec] using hu
    exact ⟨hrun, .inl ⟨hfault.trans hrun, not_undefined_of_decode_instruction hdecode⟩⟩
  · exact ⟨hrun, .inr ⟨takeFault_fault s _, undefined_of_decode_failure hdecode⟩⟩

/-- Settles O10, by `step_undefined`: `takeFault` sets the latch and nothing else. -/
theorem undefinedOpcodeTakesDecodeFailure : Obligations.UndefinedOpcodeTakesDecodeFailure :=
  fun _ hrun hundef => step_undefined hrun hundef

/-- Settles O11: a program counter from the driver leaves the latch set, and a run stops at its first step. -/
theorem latchedBlockTakesNoStep : Obligations.LatchedBlockTakesNoStep := by
  intro s fault hlatched
  have hlatched_at (pc : Word) : { s with pc := pc }.fault = some fault := hlatched
  exact ⟨step_latched hlatched, fun pc => step_latched (hlatched_at pc), run_latched hlatched⟩

end Sys2Proof.Machine
end

section
/-! PROOFS. The statement about launch (70_reset_and_hazards.md): reset is one of the launch states, and each of them meets the
invariant. -/

namespace Sys2Proof.Machine

/-- Reset with a canonical launch memory is a launch state: R200 is a case of R202. -/
theorem resetWith_launch {mem0 : Memory} (hm : mem0.wf = true) : (State.resetWith mem0).Launch := by
  have hflags : (State.resetWith mem0).FlagsMasked := BitVec.zero_and
  exact ⟨hflags, hm, rfl, rfl⟩

/-- A launch state's latch is clear, so there is no latched fault to justify. -/
theorem launch_inv {s : State} (hlaunch : s.Launch) : s.Inv := by
  obtain ⟨hflags, hmem, -, hrun⟩ := hlaunch
  exact ⟨hflags, hmem, latchCoherent_of_running hrun⟩

/-- Settles O52: reset is a launch state by `resetWith_launch`, and `launch_inv` holds of every launch state. -/
theorem resetAndLaunchStatesMeetTheInvariant : Obligations.ResetAndLaunchStatesMeetTheInvariant := by
  refine ⟨reset_inv, fun mem0 hm => ?_, fun s => launch_inv⟩
  have hlaunch := resetWith_launch hm
  exact ⟨launch_inv hlaunch, hlaunch⟩

end Sys2Proof.Machine
end
